-- ==== Sys2Proof/Word.lean ====
section
/-! DEFINITION. The word types of GF256-SSS-CORE. Rule R8 numbers bits from 0 at the least significant bit, and every value
is unsigned. -/

namespace Sys2Proof

/-- A field element, an operand register, a bank element or an error code: 8 bits (R7, R13, R35). -/
abbrev Byte := BitVec 8

/-- A host bus word, and a command word: 32 bits (R7, R31, R50). -/
abbrev Word := BitVec 32

/-- A byte offset into the 4096-byte window: 12 bits (R31). -/
abbrev Offset := BitVec 12

end Sys2Proof
end

