-- ==== Sys2Proof/Config.lean ====
section
/-! DEFINITION. What the platform fixes and the spec leaves OPEN (R7): where the window sits and which interrupt line the core
drives. Both are an argument of the functions that need them, never a chosen value, so a claim about them holds for every
platform. The OPEN parameters `entropy` and `latency` are not here: they are the `entropy` and `sequencer` events of the
input list in `Machine.State` (log entries 1 and 3). -/

namespace Sys2Proof

/-- The platform's choices: `window_base` (R31, D4, I10) and `irq_line` (R89, D28, I11). -/
structure Platform where
  /-- The host address of window offset 0x000. -/
  windowBase : Nat
  /-- The input of the host's interrupt controller that the core's line drives. -/
  irqLine : Nat
  deriving DecidableEq, Repr

end Sys2Proof
end

