-- ==== Sys2Proof/Syntax.lean ====
section
/-! DEFINITION. The command set: the fields of a command word (R50) and the nine commands of the opcode map (R52). -/

namespace Sys2Proof

/-- An operand register index, G0 to G15 (R13, R51): every index is legal and none is special. -/
abbrev Reg := Fin 16

/-- The WIPE mask, a 4-bit set (R51): bit 0 is C, bit 1 is X, bit 2 is Y, bit 3 is G. -/
abbrev WipeMask := BitVec 4

/-- The fields of a command word as R50 cuts it, before any decoding. -/
structure Fields where
  op : BitVec 8
  rd : BitVec 4
  rs1 : BitVec 4
  rs2 : BitVec 4
  rs3 : BitVec 4
  rsv : BitVec 8
  deriving DecidableEq, Repr

/-- The commands, one constructor per row of the opcode table (R52), operands in the order of R57. -/
inductive Instr where
  /-- `nop` (R77) -/
  | nop
  /-- `add gD, gA, gB` (R65) -/
  | add (rd rs1 rs2 : Reg)
  /-- `mul gD, gA, gB` (R66) -/
  | mul (rd rs1 rs2 : Reg)
  /-- `inv gD, gA` (R67) -/
  | inv (rd rs1 : Reg)
  /-- `div gD, gA, gB` (R68) -/
  | div (rd rs1 rs2 : Reg)
  /-- `eval gD, gX, gK` (R69) -/
  | eval (rd rs1 rs2 : Reg)
  /-- `interp gD, gZ, gKX, gKY` (R71) -/
  | interp (rd rs1 rs2 rs3 : Reg)
  /-- `pick gN` (R74) -/
  | pick (rs1 : Reg)
  /-- `wipe M` (R78) -/
  | wipe (mask : WipeMask)
  deriving DecidableEq, Repr

/-- The 4 bits that name a register in a command word (R51). -/
def Reg.bits (r : Reg) : BitVec 4 := BitVec.ofNat 4 r.val

/-- The field values of a command, as its row of R52 lists them. -/
def Instr.fields : Instr → Fields
  | .nop => ⟨0x00#8, 0#4, 0#4, 0#4, 0#4, 0#8⟩
  | .add rd rs1 rs2 => ⟨0x01#8, rd.bits, rs1.bits, rs2.bits, 0#4, 0#8⟩
  | .mul rd rs1 rs2 => ⟨0x02#8, rd.bits, rs1.bits, rs2.bits, 0#4, 0#8⟩
  | .inv rd rs1 => ⟨0x03#8, rd.bits, rs1.bits, 0#4, 0#4, 0#8⟩
  | .div rd rs1 rs2 => ⟨0x04#8, rd.bits, rs1.bits, rs2.bits, 0#4, 0#8⟩
  | .eval rd rs1 rs2 => ⟨0x10#8, rd.bits, rs1.bits, rs2.bits, 0#4, 0#8⟩
  | .interp rd rs1 rs2 rs3 => ⟨0x11#8, rd.bits, rs1.bits, rs2.bits, rs3.bits, 0#8⟩
  | .pick rs1 => ⟨0x20#8, 0#4, rs1.bits, 0#4, 0#4, 0#8⟩
  | .wipe mask => ⟨0x30#8, mask, 0#4, 0#4, 0#4, 0#8⟩

end Sys2Proof
end

