-- ==== Sys2Proof/WellFormed.lean ====
section
/-! DEFINITION. Which field values make a command (R52, R54). A command word is ill-formed in exactly the three ways R54 names:
an OP outside the map, a nonzero RSV field, a nonzero field that R52 lists as "0". A term of `Instr` cannot be ill-formed:
its register indices are `Fin 16` and its mask is 4 bits (R51: "Every index is legal"). -/

namespace Sys2Proof

/-- Which of RD, RS1, RS2, RS3 the row of an opcode uses (R52); `none` for an OP that is not in the map. -/
def usedFields (op : BitVec 8) : Option (Bool × Bool × Bool × Bool) :=
  if op = 0x00#8 then some (false, false, false, false)
  else if op = 0x01#8 then some (true, true, true, false)
  else if op = 0x02#8 then some (true, true, true, false)
  else if op = 0x03#8 then some (true, true, false, false)
  else if op = 0x04#8 then some (true, true, true, false)
  else if op = 0x10#8 then some (true, true, true, false)
  else if op = 0x11#8 then some (true, true, true, true)
  else if op = 0x20#8 then some (false, true, false, false)
  else if op = 0x30#8 then some (true, false, false, false)
  else none

/-- The first check: OP is one of the nine opcodes (R54, first case). -/
def Fields.opAssigned (f : Fields) : Bool := (usedFields f.op).isSome

/-- The second check: RSV is 0 (R54, second case). -/
def Fields.rsvZero (f : Fields) : Bool := f.rsv == 0#8

/-- The third check: every field the row lists as "0" is 0 (R54, third case). -/
def Fields.unusedZero (f : Fields) : Bool :=
  match usedFields f.op with
  | none => true
  | some (rd, rs1, rs2, rs3) =>
    (rd || f.rd == 0#4) && (rs1 || f.rs1 == 0#4) && (rs2 || f.rs2 == 0#4) && (rs3 || f.rs3 == 0#4)

/-- The fields make a command: none of R54's three cases holds. -/
def Fields.wellFormed (f : Fields) : Bool := f.opAssigned && f.rsvZero && f.unusedZero

/-- A command's own field values are well-formed. -/
def Instr.wellFormed (i : Instr) : Bool := i.fields.wellFormed

end Sys2Proof
end

