-- ==== Sys2Proof/Decode.lean ====
section
/-! DEFINITION. Decoding and encoding of command words (R50 to R55). Decoding is total on all 2^32 words; `none` is the spec's
`Illegal`. -/

namespace Sys2Proof

/-- R50: the fields of a command word. -/
def wordFields (w : Word) : Fields :=
  { op := w.extractLsb' 24 8
    rd := w.extractLsb' 20 4
    rs1 := w.extractLsb' 16 4
    rs2 := w.extractLsb' 12 4
    rs3 := w.extractLsb' 8 4
    rsv := w.extractLsb' 0 8 }

/-- R51: a register field is an unsigned index 0..15. -/
def regOf (b : BitVec 4) : Reg := ⟨b.toNat, b.isLt⟩

/-- R53: the command of the fields, checked in the order the rule writes. -/
def decodeFields (f : Fields) : Option Instr :=
  if f.rsv ≠ 0#8 then none
  else if f.op = 0x00#8 then
    if f.rd = 0#4 ∧ f.rs1 = 0#4 ∧ f.rs2 = 0#4 ∧ f.rs3 = 0#4 then some .nop else none
  else if f.op = 0x01#8 then
    if f.rs3 = 0#4 then some (.add (regOf f.rd) (regOf f.rs1) (regOf f.rs2)) else none
  else if f.op = 0x02#8 then
    if f.rs3 = 0#4 then some (.mul (regOf f.rd) (regOf f.rs1) (regOf f.rs2)) else none
  else if f.op = 0x03#8 then
    if f.rs2 = 0#4 ∧ f.rs3 = 0#4 then some (.inv (regOf f.rd) (regOf f.rs1)) else none
  else if f.op = 0x04#8 then
    if f.rs3 = 0#4 then some (.div (regOf f.rd) (regOf f.rs1) (regOf f.rs2)) else none
  else if f.op = 0x10#8 then
    if f.rs3 = 0#4 then some (.eval (regOf f.rd) (regOf f.rs1) (regOf f.rs2)) else none
  else if f.op = 0x11#8 then
    some (.interp (regOf f.rd) (regOf f.rs1) (regOf f.rs2) (regOf f.rs3))
  else if f.op = 0x20#8 then
    if f.rd = 0#4 ∧ f.rs2 = 0#4 ∧ f.rs3 = 0#4 then some (.pick (regOf f.rs1)) else none
  else if f.op = 0x30#8 then
    if f.rs1 = 0#4 ∧ f.rs2 = 0#4 ∧ f.rs3 = 0#4 then some (.wipe f.rd) else none
  else none

/-- R53: `decode(w)`, total on every word; `none` is `Illegal` (R54). -/
def decode (w : Word) : Option Instr := decodeFields (wordFields w)

/-- A register index placed at a bit position of a command word (R57). -/
def placeReg (r : Reg) (at_ : Nat) : Word := BitVec.ofNat 32 r.val <<< at_

/-- The command word of a command, from the encoding column of R57. -/
def encode : Instr → Word
  | .nop => 0x00000000#32
  | .add rd rs1 rs2 => 0x01000000#32 ||| placeReg rd 20 ||| placeReg rs1 16 ||| placeReg rs2 12
  | .mul rd rs1 rs2 => 0x02000000#32 ||| placeReg rd 20 ||| placeReg rs1 16 ||| placeReg rs2 12
  | .inv rd rs1 => 0x03000000#32 ||| placeReg rd 20 ||| placeReg rs1 16
  | .div rd rs1 rs2 => 0x04000000#32 ||| placeReg rd 20 ||| placeReg rs1 16 ||| placeReg rs2 12
  | .eval rd rs1 rs2 => 0x10000000#32 ||| placeReg rd 20 ||| placeReg rs1 16 ||| placeReg rs2 12
  | .interp rd rs1 rs2 rs3 =>
    0x11000000#32 ||| placeReg rd 20 ||| placeReg rs1 16 ||| placeReg rs2 12 ||| placeReg rs3 8
  | .pick rs1 => 0x20000000#32 ||| placeReg rs1 16
  | .wipe mask => 0x30000000#32 ||| (mask.zeroExtend 32 <<< 20)

/-- A row of the opcode map (R52): a word is of the row when `word AND mask = match`. -/
structure OpcodeRow where
  mnemonic : String
  matchWord : Word
  maskWord : Word
  deriving DecidableEq, Repr

/-- The match and mask columns of R52. -/
def opcodeRows : List OpcodeRow :=
  [ ⟨"NOP", 0x00000000#32, 0xFFFFFFFF#32⟩, ⟨"ADD", 0x01000000#32, 0xFF000FFF#32⟩, ⟨"MUL", 0x02000000#32, 0xFF000FFF#32⟩,
    ⟨"INV", 0x03000000#32, 0xFF00FFFF#32⟩, ⟨"DIV", 0x04000000#32, 0xFF000FFF#32⟩, ⟨"EVAL", 0x10000000#32, 0xFF000FFF#32⟩,
    ⟨"INTERP", 0x11000000#32, 0xFF0000FF#32⟩, ⟨"PICK", 0x20000000#32, 0xFFF0FFFF#32⟩, ⟨"WIPE", 0x30000000#32, 0xFF0FFFFF#32⟩ ]

/-- R53: the word is of the row. -/
def OpcodeRow.matches (r : OpcodeRow) (w : Word) : Bool := (w &&& r.maskWord) == r.matchWord

/-- The mnemonic of a command, as R52 spells it. -/
def Instr.mnemonic : Instr → String
  | .nop => "NOP"
  | .add _ _ _ => "ADD"
  | .mul _ _ _ => "MUL"
  | .inv _ _ => "INV"
  | .div _ _ _ => "DIV"
  | .eval _ _ _ => "EVAL"
  | .interp _ _ _ _ => "INTERP"
  | .pick _ => "PICK"
  | .wipe _ => "WIPE"

/-- The command of a table word: one 32-bit word (R55), bits from `nbits` up are 0. -/
def decodeTableWord (nbits w : Nat) : Option Instr := decode (BitVec.ofNat 32 (w % 2 ^ nbits))

end Sys2Proof
end

