-- ==== Sys2Proof/Machine/State.lean ====
section
/-! DEFINITION. The machine's state as plain data, the outside world's events, and the reset state. The fields `G` to `ie` are
the record of R12; `draws` is the transient state of R28; `inputs` and `response` are the model's own (log entries 1, 2). -/

namespace Sys2Proof.Machine

/-- A bank of elements (R35): pairs of an element index and its value, in the canonical form `Memory.wf`. An element that is
not listed holds 0x00, the value R29 gives every element at reset. -/
abbrev Memory := List Host.Cell

/-- One answer of the entropy port to one request (R92). -/
inductive Draw where
  /-- The port supplied a byte. -/
  | byte (r : Byte)
  /-- The port could not supply a byte. -/
  | fail
  deriving DecidableEq, Repr

/-- The core's answer to a host access (R32, R36, R37). -/
inductive Response where
  /-- The value of a legal read. -/
  | data (v : Word)
  /-- A legal write was taken: a write has no response data. -/
  | ack
  /-- The error response of R32: no value is returned. -/
  | busError
  deriving DecidableEq, Repr

/-- One event of the world around the core, or a turn of the core's own sequencer. A run is one interleaving of the host's
accesses with the sequencer's completion steps (R45); the list of these events is that interleaving (log entry 1). -/
inductive Input where
  /-- A host read of `width` bytes at a window offset (R32, R36). -/
  | read (off : Offset) (width : Nat)
  /-- A host write of `width` bytes at a window offset (R32, R37). -/
  | write (off : Offset) (width : Nat) (v : Word)
  /-- The entropy port answers the request in progress (R92). -/
  | entropy (d : Draw)
  /-- The platform asserts the hardware reset input (R96). -/
  | reset
  /-- The sequencer takes its turn (R56). -/
  | sequencer
  deriving DecidableEq, Repr

/-- The error kinds a core command raises (R81). -/
inductive ErrorKind where
  | divideByZero
  | inconsistentInputLengths
  | duplicateCoordinate
  | rangeExceeded
  | randomnessFailure
  | illegalCommand
  deriving DecidableEq, Repr

/-- The host-level error kinds that share the enumeration of R81. The core never produces one (R82, I13). -/
inductive HostErrorKind where
  | invalidThreshold
  | invalidParticipantCount
  | emptySecret
  | tooFewShares
  | inconsistentShareLengths
  deriving DecidableEq, Repr

/-- The whole state. -/
structure State where
  /-- Operand registers G0 to G15 (R13). -/
  G : Vector Byte 16
  /-- Coefficient bank (R35). -/
  C : Memory
  /-- Coordinate bank (R35). -/
  X : Memory
  /-- Value bank (R35). -/
  Y : Memory
  /-- CMD: the last accepted command word (R16). -/
  cmd : Word
  /-- STATUS.BUSY (R18). -/
  busy : Bool
  /-- STATUS.DONE (R19). -/
  done : Bool
  /-- STATUS.OVR (R20). -/
  ovr : Bool
  /-- STATUS.HAZ (R21). -/
  haz : Bool
  /-- STATUS.ERR (R22). -/
  err : Byte
  /-- CTRL.IE (R24). -/
  ie : Bool
  /-- The answers the entropy port has given the running command so far, oldest first (R28, R92, log entry 3). -/
  draws : List Draw
  /-- The events still to come, next first (R45, log entry 1). -/
  inputs : List Input
  /-- The core's answer to the most recent host access (R36, R37, log entry 2). -/
  response : Option Response
  deriving DecidableEq, Repr

/-- Why the machine would stop with a fault. The spec stops it nowhere: an error is a completion with a code (R83, R86) and a
bad access is answered with a bus error that changes no state (R32). So there is no reason to name (log entry 15). -/
inductive Fault where
  deriving DecidableEq, Repr

/-- Why a command would have no meaning. -/
inductive Refusal where
  /-- A command rejected by name in `exec`. No arm of `exec` answers it, since every command has its meaning; it would be
  safe (log entry 15). -/
  | notModelled (mnemonic : String)
  deriving DecidableEq, Repr

/-- The machine right after reset (R29, R96): every field of R12 is 0, and nothing is in progress (R28). The model's own
fields are empty: no event is planned and no access has been made (log entry 10). -/
def State.reset : State :=
  { G := Vector.replicate 16 0#8
    C := []
    X := []
    Y := []
    cmd := 0#32
    busy := false
    done := false
    ovr := false
    haz := false
    err := 0#8
    ie := false
    draws := []
    inputs := []
    response := none }

end Sys2Proof.Machine
end

