-- ==== Sys2Proof/Machine/Flags.lean ====
section
/-! DEFINITION. STATUS, CTRL, ID, the error codes and the interrupt line. The core has no arithmetic flags (R23). -/

namespace Sys2Proof.Machine

/-- R81: the code of each error kind a core command raises. -/
def ErrorKind.code : ErrorKind → Byte
  | .divideByZero => 0x01#8
  | .inconsistentInputLengths => 0x02#8
  | .duplicateCoordinate => 0x03#8
  | .rangeExceeded => 0x04#8
  | .randomnessFailure => 0x05#8
  | .illegalCommand => 0x06#8

/-- R81: the codes reserved for the host-level kinds. The core never writes one to STATUS.ERR (R82). -/
def HostErrorKind.code : HostErrorKind → Byte
  | .invalidThreshold => 0x80#8
  | .invalidParticipantCount => 0x81#8
  | .emptySecret => 0x82#8
  | .tooFewShares => 0x83#8
  | .inconsistentShareLengths => 0x84#8

/-- R81, R83: the code a completion records, 0x00 for success. -/
def outcomeCode : Option ErrorKind → Byte
  | none => 0x00#8
  | some e => e.code

/-- A flag as a bus word. -/
def flagWord (b : Bool) : Word := if b then 1#32 else 0#32

/-- R17: the value a read of STATUS returns. -/
def statusWord (s : State) : Word :=
  (s.err.zeroExtend 32 <<< 8) ||| (flagWord s.haz <<< 3) ||| (flagWord s.ovr <<< 2) ||| (flagWord s.done <<< 1) |||
    flagWord s.busy

/-- R37: a write of `v` to STATUS. A 1 clears DONE, OVR or HAZ; every other bit is ignored. -/
def statusWrite (v : Word) (s : State) : State :=
  { s with
    done := s.done && !v.getLsbD 1
    ovr := s.ovr && !v.getLsbD 2
    haz := s.haz && !v.getLsbD 3 }

/-- R24, R36: the value a read of CTRL returns. SRST reads 0. -/
def ctrlWord (s : State) : Word := flagWord s.ie

/-- R26: ID is a constant. -/
def idWord : Word := 0x47463801#32

/-- R89: the level-sensitive interrupt output. -/
def irq (s : State) : Bool := s.done && s.ie

end Sys2Proof.Machine
end

