-- ==== Sys2Proof/Machine/Ops.lean ====
section
/-! DEFINITION. The named operations over banks and registers, the shared completion of every command (R83, R84), command
acceptance (R38) and reset (R96). -/

namespace Sys2Proof.Machine

/-- The value of element `i` of a bank; an element that is not listed holds 0x00 (R29). -/
def Memory.read : Memory → Nat → Byte
  | [], _ => 0#8
  | (j, u) :: rest, i => if i = j then u else Memory.read rest i

/-- Write element `i` of a bank, keeping the canonical form: writing 0x00 removes the entry. -/
def Memory.write : Memory → Nat → Byte → Memory
  | [], i, v => if v = 0#8 then [] else [(i, v)]
  | (j, u) :: rest, i, v =>
    if i < j then (if v = 0#8 then (j, u) :: rest else (i, v) :: (j, u) :: rest)
    else if i = j then (if v = 0#8 then rest else (i, v) :: rest)
    else (j, u) :: Memory.write rest i v

/-- Every listed index is at least `lo`, rises strictly, stays below 256, and no listed value is 0x00. -/
def Memory.wfFrom : Nat → Memory → Bool
  | _, [] => true
  | lo, (j, u) :: rest => decide (lo ≤ j) && decide (j < 256) && decide (u ≠ 0#8) && Memory.wfFrom (j + 1) rest

/-- The canonical form of a bank of 256 elements (R35). -/
def Memory.wf (m : Memory) : Bool := Memory.wfFrom 0 m

/-- `for t in 0..k-1: M[t] <- f(t)`, in the order the pseudocode writes (R9). -/
def Memory.fill (m : Memory) (k : Nat) (f : Nat → Byte) : Memory :=
  (List.range k).foldl (fun b t => b.write t (f t)) m

/-- `swap M[i], M[j]` (R74). -/
def Memory.swap (m : Memory) (i j : Nat) : Memory := (m.write i (m.read j)).write j (m.read i)

/-- `G[r]` (R9, R13). No register is hardwired. -/
def readG (s : State) (r : Reg) : Byte := s.G[r.val]

/-- `G[r] <- v` (R9, R13). -/
def writeG (s : State) (r : Reg) (v : Byte) : State := { s with G := s.G.set r.val v }

/-- The completion step of R83, applied after the writes R84 allows: BUSY is cleared, DONE is set, ERR gets the code, and the
transient state is discarded (R28). CMD, OVR, HAZ and IE are unchanged. -/
def complete (s : State) (e : Option ErrorKind) : State :=
  { s with busy := false, done := true, err := outcomeCode e, draws := [] }

/-- A command that succeeds completes with ERR = 0x00 over the state its rule has written (R83, R84). -/
def succeed (s : State) : Host.Outcome State Fault Refusal := .next (complete s none)

/-- `raise E` (R9, R84): the command ends at once with the kind's code. There is no trap: no state is saved beyond ERR and CMD,
and control goes nowhere (R86). -/
def raise (e : ErrorKind) (s : State) : Host.Outcome State Fault Refusal := .next (complete s (some e))

/-- `G[rd] <- v` and success: the end of every command that has a destination register. -/
def succeedWith (rd : Reg) (v : Byte) (s : State) : Host.Outcome State Fault Refusal := succeed (writeG s rd v)

/-- A CMD write of `v` while idle: the word is latched and the command starts (R38). -/
def accept (v : Word) (s : State) : State := { s with cmd := v, busy := true, done := false, err := 0#8 }

/-- A host write of `v` to CMD: accepted while idle, dropped with OVR while busy (R38). -/
def cmdWrite (v : Word) (s : State) : State := if s.busy then { s with ovr := true } else accept v s

/-- Reset, hardware or soft (R96, R97): every field of R12 gets its reset value and the transient state is dropped, whatever
was running. The world's coming events and the bus answer are no part of the core (log entry 11). -/
def resetCore (s : State) : State := { State.reset with inputs := s.inputs, response := s.response }

end Sys2Proof.Machine
end

