-- ==== Sys2Proof/Machine/Operands.lean ====
section
/-! DEFINITION. The operand forms: counts held in registers, the WIPE mask (R51), and the places a host access can name
(R32, R33). -/

namespace Sys2Proof.Machine

/-- A count or length held in a register: unsigned, no scaling (R51). -/
def countOf (s : State) (r : Reg) : Nat := (readG s r).toNat

/-- R51: mask bit 0 selects bank C. -/
def maskC (m : WipeMask) : Bool := m.getLsbD 0

/-- R51: mask bit 1 selects bank X. -/
def maskX (m : WipeMask) : Bool := m.getLsbD 1

/-- R51: mask bit 2 selects bank Y. -/
def maskY (m : WipeMask) : Bool := m.getLsbD 2

/-- R51: mask bit 3 selects the operand registers. -/
def maskG (m : WipeMask) : Bool := m.getLsbD 3

/-- What a mapped window offset names (R33). -/
inductive Place where
  | cmd
  | status
  | ctrl
  | id
  | g (i : Reg)
  | c (i : Fin 256)
  | x (i : Fin 256)
  | y (i : Fin 256)
  deriving DecidableEq, Repr

/-- The element that a word-aligned offset names in a region of 256 words. -/
def elementIndex (off base : Nat) : Fin 256 := Fin.ofNat 256 ((off - base) / 4)

/-- R33: the place at a word-aligned offset; `none` in the two unmapped ranges. -/
def mapped (off : Nat) : Option Place :=
  if off = 0x000 then some .cmd
  else if off = 0x004 then some .status
  else if off = 0x008 then some .ctrl
  else if off = 0x00C then some .id
  else if off < 0x040 then none
  else if off < 0x080 then some (.g (Fin.ofNat 16 ((off - 0x040) / 4)))
  else if off < 0x400 then none
  else if off < 0x800 then some (.c (elementIndex off 0x400))
  else if off < 0xC00 then some (.x (elementIndex off 0x800))
  else some (.y (elementIndex off 0xC00))

/-- R32: the place a host access of `width` bytes at `off` names; `none` when the access is illegal (another width, a
misaligned offset, an unmapped offset), which the bus answers with an error. -/
def place (off : Offset) (width : Nat) : Option Place :=
  if width = 4 ∧ off.toNat % 4 = 0 then mapped off.toNat else none

/-- R33: the window offset of a place. -/
def Place.offset : Place → Offset
  | .cmd => 0x000#12
  | .status => 0x004#12
  | .ctrl => 0x008#12
  | .id => 0x00C#12
  | .g i => BitVec.ofNat 12 (0x040 + 4 * i.val)
  | .c i => BitVec.ofNat 12 (0x400 + 4 * i.val)
  | .x i => BitVec.ofNat 12 (0x800 + 4 * i.val)
  | .y i => BitVec.ofNat 12 (0xC00 + 4 * i.val)

/-- The place is operand storage, which belongs to the running command while BUSY = 1 (R39). -/
def Place.isStorage : Place → Bool
  | .cmd => false
  | .status => false
  | .ctrl => false
  | .id => false
  | .g _ => true
  | .c _ => true
  | .x _ => true
  | .y _ => true

/-- The element held in an operand storage place; the registers of the window hold no element. -/
def storedAt (s : State) : Place → Byte
  | .cmd => 0#8
  | .status => 0#8
  | .ctrl => 0#8
  | .id => 0#8
  | .g i => readG s i
  | .c i => s.C.read i.val
  | .x i => s.X.read i.val
  | .y i => s.Y.read i.val

end Sys2Proof.Machine
end

