-- ==== Sys2Proof/Machine/CoordinateSelect.lean ====
section
/-! DEFINITION. The secure random coordinate selector PICK (R74 to R76) and its use of the entropy port (R92). The answers the
port has given are an argument, so PICK's result is a function of them. -/

namespace Sys2Proof.Machine

/-- R74: candidates left at step i: positions i..254. -/
def candidates (i : Nat) : Nat := 255 - i

/-- R74: the largest multiple of the candidate count that is at most 256. -/
def drawLimit (i : Nat) : Nat := 256 - 256 % candidates i

/-- R74: `for t in 0..254: X[t] <- t + 1`, the nonzero field elements in order. -/
def orderedCoordinates (x : Memory) : Memory := x.fill 255 (fun t => BitVec.ofNat 8 (t + 1))

/-- R74, R84: `for t in 0..254: X[t] <- 0x00`, no partial output. -/
def clearedCoordinates (x : Memory) : Memory := x.fill 255 (fun _ => 0#8)

/-- How far the answers given so far take the shuffle; `rest` is what it did not consume. -/
inductive PickResult where
  /-- All n steps are made: bank X, and the answers left over. -/
  | selected (x : Memory) (rest : List Draw)
  /-- A draw was answered with FAIL: the answers after it. -/
  | failed (rest : List Draw)
  /-- A request is in progress and has no answer yet. -/
  | waiting
  deriving DecidableEq, Repr

/-- R74: steps i..n-1 of the forward Fisher-Yates shuffle over the answers. A draw r < limit swaps X[i] with
X[i + (r mod m)]; any other is rejected and drawn again; FAIL ends it. -/
def shuffle (n : Nat) : List Draw → Nat → Memory → PickResult
  | [], i, x => if n ≤ i then .selected x [] else .waiting
  | d :: ds, i, x =>
    if n ≤ i then .selected x (d :: ds)
    else
      match d with
      | .fail => .failed ds
      | .byte r =>
        if r.toNat < drawLimit i then shuffle n ds (i + 1) (x.swap i (i + r.toNat % candidates i))
        else shuffle n ds i x

/-- R74: the whole shuffle, from the ordered coordinates. -/
def pickResult (s : State) (rs1 : Reg) : PickResult :=
  shuffle (countOf s rs1) s.draws 0 (orderedCoordinates s.X)

/-- R74: PICK. RangeExceeded when n = 0, before any draw; RandomnessFailure on the first FAIL, with X[0..254] cleared; while
a request has no answer yet the command stays in progress and BUSY stays 1 (R76, R92, R103). -/
def execPick (rs1 : Reg) (s : State) : Host.Outcome State Fault Refusal :=
  if countOf s rs1 = 0 then raise .rangeExceeded s
  else
    match pickResult s rs1 with
    | .selected x _ => succeed { s with X := x }
    | .failed _ => raise .randomnessFailure { s with X := clearedCoordinates s.X }
    | .waiting => .next s

end Sys2Proof.Machine
end

