-- ==== Sys2Proof/Machine/Gf.lean ====
section
/-! DEFINITION. The field functions of GF(2^8) modulo 0x11B (R3, R59 to R64). Only what they compute is architectural (R63). -/

namespace Sys2Proof.Machine

/-- R3: x^8 + x^4 + x^3 + x + 1. -/
def reductionPoly : BitVec 16 := 0x011B#16

/-- R59: addition, and subtraction, is XOR. -/
def gfadd (a b : Byte) : Byte := a ^^^ b

/-- R60: the carry-less product, degree at most 14. -/
def clmul (a b : Byte) : BitVec 16 :=
  (List.range 8).foldl (fun p i => if b.getLsbD i then p ^^^ (a.zeroExtend 16 <<< i) else p) 0#16

/-- R60: one step of the reduction, for the coefficient of x^i. -/
def reduceBit (p : BitVec 16) (i : Nat) : BitVec 16 :=
  if p.getLsbD i then p ^^^ (reductionPoly <<< (i - 8)) else p

/-- R60: reduction modulo 0x11B, `for i in 14 downto 8`. -/
def gfreduce (p : BitVec 16) : BitVec 16 := [14, 13, 12, 11, 10, 9, 8].foldl reduceBit p

/-- R60: multiplication. -/
def gfmul (a b : Byte) : Byte := (gfreduce (clmul a b)).extractLsb' 0 8

/-- Every field element, in order. -/
def allBytes : List Byte := (List.range 256).map (BitVec.ofNat 8)

/-- R61: the element whose product with `a` is 0x01. There is none for 0: `gfinv(0)` is not a value. -/
def gfinv (a : Byte) : Option Byte := allBytes.find? (fun b => gfmul a b == 1#8)

/-- R62: `gfmul(a, gfinv(b))`; `gfdiv(a, 0)` is not a value. -/
def gfdiv (a b : Byte) : Option Byte := (gfinv b).map (gfmul a)

/-- R70: x^0 = 0x01 and x^(i+1) = gfmul(x^i, x). -/
def gfpow (x : Byte) : Nat → Byte
  | 0 => 1#8
  | n + 1 => gfmul (gfpow x n) x

end Sys2Proof.Machine
end

