-- ==== Sys2Proof/Machine/FieldArith.lean ====
section
/-! DEFINITION. The scalar commands ADD, MUL, INV and DIV (R65 to R68). -/

namespace Sys2Proof.Machine

/-- R65: `G[rd] <- gfadd(G[rs1], G[rs2])`. -/
def execAdd (rd rs1 rs2 : Reg) (s : State) : Host.Outcome State Fault Refusal :=
  succeedWith rd (gfadd (readG s rs1) (readG s rs2)) s

/-- R66: `G[rd] <- gfmul(G[rs1], G[rs2])`. -/
def execMul (rd rs1 rs2 : Reg) (s : State) : Host.Outcome State Fault Refusal :=
  succeedWith rd (gfmul (readG s rs1) (readG s rs2)) s

/-- The end of a command whose result is a quotient: DivideByZero where there is no value (R61, R62, R84). -/
def succeedOrDivideByZero (rd : Reg) (v : Option Byte) (s : State) : Host.Outcome State Fault Refusal :=
  match v with
  | none => raise .divideByZero s
  | some q => succeedWith rd q s

/-- R67: DivideByZero when G[rs1] = 0x00, else `G[rd] <- gfinv(G[rs1])`. -/
def execInv (rd rs1 : Reg) (s : State) : Host.Outcome State Fault Refusal :=
  if readG s rs1 = 0#8 then raise .divideByZero s
  else succeedOrDivideByZero rd (gfinv (readG s rs1)) s

/-- R68: DivideByZero when G[rs2] = 0x00, whatever G[rs1] is, else `G[rd] <- gfdiv(G[rs1], G[rs2])`. -/
def execDiv (rd rs1 rs2 : Reg) (s : State) : Host.Outcome State Fault Refusal :=
  if readG s rs2 = 0#8 then raise .divideByZero s
  else succeedOrDivideByZero rd (gfdiv (readG s rs1) (readG s rs2)) s

end Sys2Proof.Machine
end

