-- ==== Sys2Proof/Machine/Polynomial.lean ====
section
/-! DEFINITION. The polynomial commands EVAL and INTERP (R69 to R73). -/

namespace Sys2Proof.Machine

/-- R69: Horner's method over C[0..k-1] at x, for k ≥ 1: the accumulator starts at C[k-1] and i runs from k-2 down to 0. -/
def horner (c : Memory) (k : Nat) (x : Byte) : Byte :=
  (List.range (k - 1)).foldr (fun i acc => gfadd (c.read i) (gfmul acc x)) (c.read (k - 1))

/-- R69: the value EVAL writes. At x = 0x00 the intercept is returned directly. -/
def evalAt (c : Memory) (k : Nat) (x : Byte) : Byte := if x = 0#8 then c.read 0 else horner c k x

/-- R70: the field sum over i = 0..k-1 of gfmul(C[i], x^i), the value at x of the polynomial whose coefficient i is C[i]. No
command computes by it; claims about EVAL and INTERP are stated with it. -/
def polySum (c : Memory) (k : Nat) (x : Byte) : Byte :=
  (List.range k).foldl (fun acc i => gfadd acc (gfmul (c.read i) (gfpow x i))) 0#8

/-- R69: EVAL. -/
def execEval (rd rs1 rs2 : Reg) (s : State) : Host.Outcome State Fault Refusal :=
  if countOf s rs2 = 0 then raise .rangeExceeded s
  else succeedWith rd (evalAt s.C (countOf s rs2) (readG s rs1)) s

/-- R71: two of X[0..k-1] are equal. -/
def hasDuplicate (xs : Memory) (k : Nat) : Bool :=
  (List.range k).any fun i => (List.range k).any fun j => decide (i < j) && (xs.read i == xs.read j)

/-- R71: one factor of the basis product of point i: gfdiv(gfadd(z, X[j]), gfadd(X[i], X[j])), left out for j = i. -/
def basisStep (xs : Memory) (z : Byte) (i : Nat) (basis : Byte) (j : Nat) : Option Byte :=
  if j = i then some basis
  else (gfdiv (gfadd z (xs.read j)) (gfadd (xs.read i) (xs.read j))).map (gfmul basis)

/-- R71, R73: the basis product of point i, which starts at 0x01, never at 0x00. -/
def lagrangeBasis (xs : Memory) (k : Nat) (z : Byte) (i : Nat) : Option Byte :=
  (List.range k).foldlM (basisStep xs z i) 1#8

/-- R71: the value at z of the Lagrange interpolant of the points (X[i], Y[i]), i = 0..k-1. It has no value only where a divisor
is 0, which the duplicate check excludes (log entry 7). -/
def interpolate (xs ys : Memory) (k : Nat) (z : Byte) : Option Byte :=
  (List.range k).foldlM
    (fun acc i => (lagrangeBasis xs k z i).map fun basis => gfadd acc (gfmul basis (ys.read i))) 0#8

/-- R71: INTERP. The checks run in the order the rule gives, and the first that fails is reported (R85). -/
def execInterp (rd rs1 rs2 rs3 : Reg) (s : State) : Host.Outcome State Fault Refusal :=
  if countOf s rs2 ≠ countOf s rs3 then raise .inconsistentInputLengths s
  else if countOf s rs2 = 0 then raise .rangeExceeded s
  else if hasDuplicate s.X (countOf s rs2) then raise .duplicateCoordinate s
  else succeedOrDivideByZero rd (interpolate s.X s.Y (countOf s rs2) (readG s rs1)) s

end Sys2Proof.Machine
end

