-- ==== Sys2Proof/Machine/SystemCommands.lean ====
section
/-! DEFINITION. The system commands NOP and WIPE (R77, R78). -/

namespace Sys2Proof.Machine

/-- R77: NOP does nothing but complete. -/
def execNop (s : State) : Host.Outcome State Fault Refusal := succeed s

/-- R78: a bank after a WIPE that selects it or not. Every element is 0x00, so nothing is listed. -/
def wipeBank (selected : Bool) (m : Memory) : Memory := if selected then [] else m

/-- R78: the operand registers after a WIPE that selects them or not. -/
def wipeRegs (selected : Bool) (g : Vector Byte 16) : Vector Byte 16 := if selected then Vector.replicate 16 0#8 else g

/-- R78: WIPE. -/
def execWipe (mask : WipeMask) (s : State) : Host.Outcome State Fault Refusal :=
  succeed
    { s with
      C := wipeBank (maskC mask) s.C
      X := wipeBank (maskX mask) s.X
      Y := wipeBank (maskY mask) s.Y
      G := wipeRegs (maskG mask) s.G }

end Sys2Proof.Machine
end

