-- ==== Sys2Proof/Machine/Dispatch.lean ====
section
/-! DEFINITION. The meaning of each command: the sequencer's step for it (R56). -/

namespace Sys2Proof.Machine

def exec (i : Instr) (s : State) : Host.Outcome State Fault Refusal :=
  match i with
  | .nop => Sys2Proof.Machine.execNop s
  | .add rd rs1 rs2 => Sys2Proof.Machine.execAdd rd rs1 rs2 s
  | .mul rd rs1 rs2 => Sys2Proof.Machine.execMul rd rs1 rs2 s
  | .inv rd rs1 => Sys2Proof.Machine.execInv rd rs1 s
  | .div rd rs1 rs2 => Sys2Proof.Machine.execDiv rd rs1 rs2 s
  | .eval rd rs1 rs2 => Sys2Proof.Machine.execEval rd rs1 rs2 s
  | .interp rd rs1 rs2 rs3 => Sys2Proof.Machine.execInterp rd rs1 rs2 rs3 s
  | .pick rs1 => Sys2Proof.Machine.execPick rs1 s
  | .wipe mask => Sys2Proof.Machine.execWipe mask s

end Sys2Proof.Machine
end

