-- ==== Sys2Proof/Machine/HostPort.lean ====
section
/-! DEFINITION. Host accesses to the window (R31 to R44) and the platform's view of them. -/

namespace Sys2Proof.Machine

/-- R36, R39: a read of operand storage. While busy it returns 0 and sets HAZ. -/
def storageRead (e : Byte) (s : State) : State × Response :=
  if s.busy then ({ s with haz := true }, .data 0#32) else (s, .data (e.zeroExtend 32))

/-- The element of an operand storage place replaced by bits [7:0] of `v` (R34); the other places hold no element. -/
def storeAt (p : Place) (v : Word) (s : State) : State :=
  match p with
  | .cmd => s
  | .status => s
  | .ctrl => s
  | .id => s
  | .g i => writeG s i (v.extractLsb' 0 8)
  | .c i => { s with C := s.C.write i.val (v.extractLsb' 0 8) }
  | .x i => { s with X := s.X.write i.val (v.extractLsb' 0 8) }
  | .y i => { s with Y := s.Y.write i.val (v.extractLsb' 0 8) }

/-- R37, R39: a write of operand storage. While busy it is dropped and sets HAZ. -/
def storageWrite (p : Place) (v : Word) (s : State) : State :=
  if s.busy then { s with haz := true } else storeAt p v s

/-- R37, R25: a write of `v` to CTRL. SRST wins over IE; bits [31:2] are ignored. -/
def ctrlWrite (v : Word) (s : State) : State :=
  if v.getLsbD 1 then resetCore s else { s with ie := v.getLsbD 0 }

/-- R36: `MemRead(off, width)`: the state after, and the answer on the bus. -/
def memRead (off : Offset) (width : Nat) (s : State) : State × Response :=
  match place off width with
  | none => (s, .busError)
  | some .cmd => (s, .data s.cmd)
  | some .status => (s, .data (statusWord s))
  | some .ctrl => (s, .data (ctrlWord s))
  | some .id => (s, .data idWord)
  | some (.g i) => storageRead (readG s i) s
  | some (.c i) => storageRead (s.C.read i.val) s
  | some (.x i) => storageRead (s.X.read i.val) s
  | some (.y i) => storageRead (s.Y.read i.val) s

/-- R37: `MemWrite(off, width, v)`: the state after, and the answer on the bus. -/
def memWrite (off : Offset) (width : Nat) (v : Word) (s : State) : State × Response :=
  match place off width with
  | none => (s, .busError)
  | some .cmd => (cmdWrite v s, .ack)
  | some .status => (statusWrite v s, .ack)
  | some .ctrl => (ctrlWrite v s, .ack)
  | some .id => (s, .ack)
  | some (.g i) => (storageWrite (.g i) v s, .ack)
  | some (.c i) => (storageWrite (.c i) v s, .ack)
  | some (.x i) => (storageWrite (.x i) v s, .ack)
  | some (.y i) => (storageWrite (.y i) v s, .ack)

/-- The core drives its answer on the host bus. -/
def respond (r : State × Response) : State := { r.1 with response := some r.2 }

/-- R31: the window offset of a host address, for the platform that places the window; `none` for an address of something
else. -/
def platformOffset (p : Platform) (addr : Nat) : Option Offset :=
  if p.windowBase ≤ addr ∧ addr < p.windowBase + 4096 then some (BitVec.ofNat 12 (addr - p.windowBase)) else none

/-- A host read by host address; an address outside the window does not reach the core. -/
def platformRead (p : Platform) (addr width : Nat) (s : State) : State :=
  match platformOffset p addr with
  | none => s
  | some off => respond (memRead off width s)

/-- A host write by host address; an address outside the window does not reach the core. -/
def platformWrite (p : Platform) (addr width : Nat) (v : Word) (s : State) : State :=
  match platformOffset p addr with
  | none => s
  | some off => respond (memWrite off width v s)

/-- R89: which input of the host's interrupt controller the core asserts. -/
def platformIrq (p : Platform) (line : Nat) (s : State) : Bool := decide (line = p.irqLine) && irq s

end Sys2Proof.Machine
end

