-- ==== Sys2Proof/Machine/Sequencer.lean ====
section
/-! DEFINITION. The sequencer's turn (R56), the entropy port (R92) and what each event of the world does. -/

namespace Sys2Proof.Machine

/-- R56: the sequencer's turn. While BUSY = 1 it decodes CMD and performs the command; an illegal word raises IllegalCommand
and changes nothing but STATUS (R54). While idle it has no step, so nothing changes (R95, log entry 9). -/
def sequencerTurn (s : State) : Host.Outcome State Fault Refusal :=
  if s.busy then
    match decode s.cmd with
    | none => raise .illegalCommand s
    | some i => exec i s
  else .next s

/-- R92: the core has a request in progress on the entropy port: a PICK is running and needs an answer it has not had. -/
def requestPending (s : State) : Bool :=
  if s.busy then
    match decode s.cmd with
    | some (.pick rs1) => decide (countOf s rs1 ≠ 0) && (pickResult s rs1 == .waiting)
    | _ => false
  else false

/-- R92: an answer of the entropy port goes to the request in progress. With none in progress it is discarded (log entry 4, DEDUCED: R97
says it of the answer to a request that a reset abandoned). -/
def entropyAnswer (d : Draw) (s : State) : State :=
  if requestPending s then { s with draws := s.draws ++ [d] } else s

/-- What one event does. -/
def event (e : Input) (s : State) : Host.Outcome State Fault Refusal :=
  match e with
  | .read off width => .next (respond (memRead off width s))
  | .write off width v => .next (respond (memWrite off width v s))
  | .entropy d => .next (entropyAnswer d s)
  | .reset => .next (resetCore s)
  | .sequencer => sequencerTurn s

/-- The state in which the very next turn runs the command word `v` as freshly accepted (R38), with no event before it. -/
def loadCommand (v : Word) (s : State) : State := { accept v s with inputs := [] }

end Sys2Proof.Machine
end

