-- ==== Sys2Proof/Machine/Step.lean ====
section
/-! DEFINITION. One step of the machine: the next event of the input list, or, with no event left, the sequencer's turn (R45, R56,
log entry 1). -/

namespace Sys2Proof.Machine

def step (s : State) : Host.Outcome State Fault Refusal :=
  match s.inputs with
  | [] => sequencerTurn s
  | e :: rest => event e { s with inputs := rest }

/-- The core fetches nothing (R15): the command it runs is the word in CMD (R48). This is the state right after the host's CMD write
of the word was accepted (R38), with no other event to come, so that the next step runs it (log entry 9). -/
def State.withFetchWord (s : State) (nbits w : Nat) : State := loadCommand (BitVec.ofNat 32 (w % 2 ^ nbits)) s

end Sys2Proof.Machine
end

