-- ==== Sys2Proof/Machine/Asm.lean ====
section
/-! DEFINITION. The command assembly language (R57, R58) and the host-script forms (R58). Text is a list of characters, so the
assembler is structural and can be evaluated. What R57 leaves open of the text's form is in log entries 14, 19 and 20. -/

namespace Sys2Proof.Machine

/-- The characters between tokens. -/
def isBlank (c : Char) : Bool := c == ' ' || c == '\t'

/-- The letter in lower case (R57: registers are case-insensitive). -/
def lowerChar (c : Char) : Char := if 65 ≤ c.toNat ∧ c.toNat ≤ 90 then Char.ofNat (c.toNat + 32) else c

/-- A decimal digit's value. -/
def decDigit (c : Char) : Option Nat := if 48 ≤ c.toNat ∧ c.toNat ≤ 57 then some (c.toNat - 48) else none

/-- A hexadecimal digit's value. -/
def hexDigit (c : Char) : Option Nat :=
  if 97 ≤ (lowerChar c).toNat ∧ (lowerChar c).toNat ≤ 102 then some ((lowerChar c).toNat - 87) else decDigit c

/-- The digits of a number in a base, most significant first; no digit is no number. -/
def parseDigits (base : Nat) (digit : Char → Option Nat) : List Char → Option Nat
  | [] => none
  | c :: cs => (c :: cs).foldlM (fun acc d => (digit d).map (base * acc + ·)) 0

/-- R57: a number is decimal or `0x` hexadecimal. Leading zeros are allowed (log entry 19, DESIGN CHOICE). -/
def parseNumber : List Char → Option Nat
  | '0' :: 'x' :: cs => parseDigits 16 hexDigit cs
  | cs => parseDigits 10 decDigit cs

/-- R57: a register is `g0` to `g15`. Its number has no leading zero, so `g01` is no register (log entry 19, DESIGN CHOICE: R57 does
not say). -/
def parseReg : List Char → Option Reg
  | [] => none
  | _ :: '0' :: _ :: _ => none
  | c :: cs =>
    if lowerChar c = 'g' then
      match parseDigits 10 decDigit cs with
      | none => none
      | some n => if h : n < 16 then some ⟨n, h⟩ else none
    else none

/-- The pieces of a text between occurrences of a character. -/
def splitAtChar (sep : Char) : List Char → List (List Char)
  | [] => [[]]
  | c :: cs =>
    match splitAtChar sep cs with
    | [] => [[]]
    | w :: ws => if c = sep then [] :: w :: ws else (c :: w) :: ws

/-- A piece of the text without the blanks before and after it; a blank inside it stays, and no operand form has one (log entry 20,
DESIGN CHOICE). -/
def trim (cs : List Char) : List Char := ((cs.dropWhile isBlank).reverse.dropWhile isBlank).reverse

/-- R57: the mask bit of a bank name. -/
def bankBit : List Char → Option WipeMask
  | ['c'] => some 1#4
  | ['x'] => some 2#4
  | ['y'] => some 4#4
  | ['g'] => some 8#4
  | _ => none

/-- R57, R58: a WIPE mask is a number 0..15, a `|`-joined list of bank names, or `all`, which is 15. Blanks may
stand around a `|` (log entry 20, DESIGN CHOICE). -/
def parseMask (cs : List Char) : Option WipeMask :=
  if cs = ['a', 'l', 'l'] then some 15#4
  else
    match parseNumber cs with
    | some n => if n < 16 then some (BitVec.ofNat 4 n) else none
    | none => (splitAtChar '|' cs).foldlM (fun m name => (bankBit (trim name)).map (m ||| ·)) 0#4

/-- R57: a comment runs from `;` to the end of the line. -/
def dropComment : List Char → List Char
  | [] => []
  | c :: cs => if c = ';' then [] else c :: dropComment cs

/-- A line's mnemonic and its operands: the first word, then the pieces between commas, each without the blanks around it. A blank
inside an operand stays in it, and the operand is then refused: `g1 2` is no register and `1 5` no mask (log entry 20, DESIGN CHOICE:
R57 does not say). -/
def tokens (line : List Char) : List Char × List (List Char) :=
  let text := (dropComment line).dropWhile isBlank
  let name := text.takeWhile fun c => !isBlank c
  let rest := trim (text.dropWhile fun c => !isBlank c)
  (name, if rest = [] then [] else (splitAtChar ',' rest).map trim)

/-- The command of a mnemonic and its operand texts, destination first, then the sources in RS1, RS2, RS3 order (R57). -/
def assembleTokens (name : String) (args : List (List Char)) : Option Instr :=
  match name, args with
  | "nop", [] => some .nop
  | "add", [d, a, b] => do return .add (← parseReg d) (← parseReg a) (← parseReg b)
  | "mul", [d, a, b] => do return .mul (← parseReg d) (← parseReg a) (← parseReg b)
  | "inv", [d, a] => do return .inv (← parseReg d) (← parseReg a)
  | "div", [d, a, b] => do return .div (← parseReg d) (← parseReg a) (← parseReg b)
  | "eval", [d, x, k] => do return .eval (← parseReg d) (← parseReg x) (← parseReg k)
  | "interp", [d, z, kx, ky] => do return .interp (← parseReg d) (← parseReg z) (← parseReg kx) (← parseReg ky)
  | "pick", [n] => do return .pick (← parseReg n)
  | "wipe", [m] => do return .wipe (← parseMask m)
  | "clr", [d] => do let r ← parseReg d; return .add r r r
  | "sqr", [d, a] => do let r ← parseReg a; return .mul (← parseReg d) r r
  | _, _ => none

/-- R57, R58: one line of assembly text; `none` where the line is not a command. -/
def assemble (line : String) : Option Instr :=
  let t := tokens line.toList
  assembleTokens (String.ofList t.1) t.2

/-- R58: the pseudo-instructions. -/
inductive Pseudo where
  /-- `clr gD` -/
  | clr (rd : Reg)
  /-- `sqr gD, gA` -/
  | sqr (rd rs1 : Reg)
  /-- `wipe all` -/
  | wipeAll
  deriving DecidableEq, Repr

/-- R58: the expansion of a pseudo-instruction. -/
def Pseudo.expand : Pseudo → Instr
  | .clr rd => .add rd rd rd
  | .sqr rd rs1 => .mul rd rs1 rs1
  | .wipeAll => .wipe 15#4

/-- R58: the host-script forms that are one access each. -/
inductive ScriptForm where
  | sw (off : Offset) (v : Word)
  | lw (off : Offset)
  | issue (i : Instr)
  | setg (i : Reg) (v : Word)
  | getg (i : Reg)
  | setc (i : Fin 256) (v : Word)
  | getc (i : Fin 256)
  | setx (i : Fin 256) (v : Word)
  | getx (i : Fin 256)
  | sety (i : Fin 256) (v : Word)
  | gety (i : Fin 256)
  deriving DecidableEq, Repr

/-- R58: the access a host-script form makes. -/
def ScriptForm.access : ScriptForm → Input
  | .sw off v => .write off 4 v
  | .lw off => .read off 4
  | .issue i => .write 0x000#12 4 (encode i)
  | .setg i v => .write (BitVec.ofNat 12 (0x040 + 4 * i.val)) 4 v
  | .getg i => .read (BitVec.ofNat 12 (0x040 + 4 * i.val)) 4
  | .setc i v => .write (BitVec.ofNat 12 (0x400 + 4 * i.val)) 4 v
  | .getc i => .read (BitVec.ofNat 12 (0x400 + 4 * i.val)) 4
  | .setx i v => .write (BitVec.ofNat 12 (0x800 + 4 * i.val)) 4 v
  | .getx i => .read (BitVec.ofNat 12 (0x800 + 4 * i.val)) 4
  | .sety i v => .write (BitVec.ofNat 12 (0xC00 + 4 * i.val)) 4 v
  | .gety i => .read (BitVec.ofNat 12 (0xC00 + 4 * i.val)) 4

/-- R58, `wait`: the host polls STATUS again while the last poll read BUSY = 1. -/
def pollAgain : Response → Option Input
  | .data v => if v.getLsbD 0 then some (.read 0x004#12 4) else none
  | .ack => none
  | .busError => none

/-- R58, `run`: the error code in the STATUS value read at its end. -/
def runError (st : Word) : Byte := st.extractLsb' 8 8

/-- R58, `run`: the program goes on only with the code 0x00. -/
def runContinues (st : Word) : Bool := runError st == 0#8

end Sys2Proof.Machine
end

