-- ==== Sys2Proof/Safety.lean ====
section
/-! DEFINITION. What counts as a safe state and a safe run, and the words claims are stated in: what a completion leaves, what a
command leaves unchanged, which agent moves. -/

namespace Sys2Proof.Machine

/-! ### The invariant -/

/-- Every bank is in its canonical form (R35, log entry 6). -/
def banksWf (s : State) : Bool := s.C.wf && s.X.wf && s.Y.wf

/-- While a command runs, DONE is 0 and ERR is 0x00: acceptance cleared both and only completion sets them (R19, R22). -/
def runningStatusClear (s : State) : Bool := !s.busy || (!s.done && s.err == 0#8)

/-- ERR holds a code the core writes (R22, R81, R82). -/
def errCodeLegal (s : State) : Bool := decide (s.err.toNat ≤ 6)

/-- What the shuffle leaves of its answers. -/
def PickResult.leftover : PickResult → List Draw
  | .selected _ rest => rest
  | .failed rest => rest
  | .waiting => []

/-- The port is asked only inside PICK, and PICK has no answer it does not consume (R76, R92): the answers held are none while
idle or while another command runs, and all consumed by a running PICK. -/
def drawsConsumed (s : State) : Bool :=
  if s.busy then
    match decode s.cmd with
    | some (.pick rs1) => if countOf s rs1 = 0 then s.draws == [] else (pickResult s rs1).leftover == []
    | _ => s.draws == []
  else s.draws == []

/-- The invariant of the core. -/
def CoreInv (s : State) : Prop :=
  banksWf s = true ∧ runningStatusClear s = true ∧ errCodeLegal s = true ∧ drawsConsumed s = true

/-- The machine goes on from this state: a step answers a next state (R86: there is no trap). -/
def GoesOn (s : State) : Prop := ∃ t, step s = .next t

/-! ### What a command leaves -/

/-- Every element of every bank reads as before. -/
def SameBanks (s t : State) : Prop :=
  ∀ a : Nat, t.C.read a = s.C.read a ∧ t.X.read a = s.X.read a ∧ t.Y.read a = s.Y.read a

/-- Every operand register reads as before. -/
def SameRegs (s t : State) : Prop := ∀ r : Reg, readG t r = readG s r

/-- The only operand storage written is G[rd], and it holds v. -/
def WritesOnly (rd : Reg) (v : Byte) (s t : State) : Prop :=
  readG t rd = v ∧ (∀ r : Reg, r ≠ rd → readG t r = readG s r) ∧ SameBanks s t

/-- No operand storage is written. -/
def WritesNothing (s t : State) : Prop := SameRegs s t ∧ SameBanks s t

/-- CMD, OVR, HAZ and IE, and what the world around the core holds, are as before. -/
def SameRest (s t : State) : Prop :=
  t.cmd = s.cmd ∧ t.ovr = s.ovr ∧ t.haz = s.haz ∧ t.ie = s.ie ∧ t.inputs = s.inputs ∧ t.response = s.response

/-- The completion of R83 with an outcome: success, or an error kind. -/
def CompletedWith (e : Option ErrorKind) (s t : State) : Prop :=
  t.busy = false ∧ t.done = true ∧ t.err = outcomeCode e ∧ t.draws = [] ∧ SameRest s t

/-- The register a command names as its destination. -/
def destination : Instr → Option Reg
  | .nop => none
  | .add rd _ _ => some rd
  | .mul rd _ _ => some rd
  | .inv rd _ => some rd
  | .div rd _ _ => some rd
  | .eval rd _ _ => some rd
  | .interp rd _ _ _ => some rd
  | .pick _ => none
  | .wipe _ => none

/-- R85: the first check of a command that fails, in the order of the rule's table; for PICK, over the answers it has. -/
def firstError (i : Instr) (s : State) : Option ErrorKind :=
  match i with
  | .nop => none
  | .add _ _ _ => none
  | .mul _ _ _ => none
  | .inv _ rs1 => if readG s rs1 = 0#8 then some .divideByZero else none
  | .div _ _ rs2 => if readG s rs2 = 0#8 then some .divideByZero else none
  | .eval _ _ rs2 => if readG s rs2 = 0#8 then some .rangeExceeded else none
  | .interp _ _ rs2 rs3 =>
    if readG s rs2 ≠ readG s rs3 then some .inconsistentInputLengths
    else if readG s rs2 = 0#8 then some .rangeExceeded
    else if hasDuplicate s.X (countOf s rs2) then some .duplicateCoordinate
    else none
  | .pick rs1 =>
    if readG s rs1 = 0#8 then some .rangeExceeded
    else
      match pickResult s rs1 with
      | .failed _ => some .randomnessFailure
      | .selected _ _ => none
      | .waiting => none
  | .wipe _ => none

/-- The command is a PICK with a request that the port has not answered (R76, R103). -/
def awaitsEntropy (i : Instr) (s : State) : Prop :=
  ∃ rs1, i = .pick rs1 ∧ countOf s rs1 ≠ 0 ∧ pickResult s rs1 = .waiting

/-- The coordinates X[0..k-1] are pairwise distinct. -/
def Distinct (xs : Memory) (k : Nat) : Prop := ∀ i j, i < j → j < k → xs.read i ≠ xs.read j

/-- The Lagrange sum written with the closed form of the inverse, b^254 (R61): the sum over i of Y[i] times the product over
j ≠ i of (z + X[j]) / (X[i] + X[j]). No command computes by it. -/
def lagrangeSum (xs ys : Memory) (k : Nat) (z : Byte) : Byte :=
  (List.range k).foldl
    (fun acc i =>
      gfadd acc
        (gfmul (ys.read i)
          (((List.range k).filter (· ≠ i)).foldl
            (fun b j => gfmul b (gfmul (gfadd z (xs.read j)) (gfpow (gfadd (xs.read i) (xs.read j)) 254))) 1#8)))
    0#8

/-! ### Which agent moves -/

/-- The sequencer's turn is next, with a command running. -/
def SequencerRuns (s : State) : Prop := s.busy = true ∧ (s.inputs = [] ∨ s.inputs.head? = some .sequencer)

/-- The sequencer's turn is next, and it runs the command `i`. -/
def SequencerRunsCommand (s : State) (i : Instr) : Prop := SequencerRuns s ∧ decode s.cmd = some i

/-- The host's legal write of `v` to the place `p` is next. -/
def HostWrites (s : State) (p : Place) (v : Word) : Prop :=
  ∃ off width, s.inputs.head? = some (.write off width v) ∧ place off width = some p

/-- The host's legal read of the place `p` is next. -/
def HostReads (s : State) (p : Place) : Prop :=
  ∃ off width, s.inputs.head? = some (.read off width) ∧ place off width = some p

/-- A reset is next: the hardware input, or a CTRL write with bit 1 = 1 (R96). -/
def ResetNext (s : State) : Prop :=
  s.inputs.head? = some .reset ∨ ∃ v, HostWrites s .ctrl v ∧ v.getLsbD 1 = true

/-- The two states agree on everything but operand storage and the answers of the entropy port. -/
def SameControl (s t : State) : Prop :=
  s.cmd = t.cmd ∧ s.busy = t.busy ∧ s.done = t.done ∧ s.ovr = t.ovr ∧ s.haz = t.haz ∧ s.err = t.err ∧ s.ie = t.ie ∧
    s.inputs = t.inputs ∧ s.response = t.response

end Sys2Proof.Machine
end

