-- ==== Sys2Proof/Certificates/Slice0/Obligations.lean ====
section
/-! DEFINITION. The statements for the provers. Each docstring names the rule of spec/ it formalises. -/

open Sys2Proof Sys2Proof.Machine

/-! ### Field arithmetic -/

/-- R64: the field laws, the §4.1 contract and the derived laws. Every result is a `Byte`, so it stays within 0..255. -/
def Obligations.GfFieldLaws : Prop :=
  (∀ a b c : Byte,
    gfadd a b = gfadd b a ∧ gfadd a 0#8 = a ∧ gfadd a a = 0#8 ∧ gfadd (gfadd a b) c = gfadd a (gfadd b c) ∧
    gfmul a b = gfmul b a ∧ gfmul (gfmul a b) c = gfmul a (gfmul b c) ∧
    gfmul a (gfadd b c) = gfadd (gfmul a b) (gfmul a c) ∧ gfmul a 0#8 = 0#8 ∧ gfmul a 1#8 = a ∧
    gfdiv a 0#8 = none ∧ (gfmul a b = 0#8 ↔ a = 0#8 ∨ b = 0#8)) ∧
  (∀ a : Byte, a ≠ 0#8 → ∃ b, gfinv a = some b ∧ gfmul a b = 1#8 ∧ gfinv b = some a) ∧
  (∀ a b c : Byte, b ≠ 0#8 → (gfdiv a b = some c ↔ gfmul b c = a))

/-- The polynomial over GF(2) that a bit vector stands for: bit i is the coefficient of x^i (R60). -/
noncomputable def Sys2Proof.asPolynomial {n : Nat} (v : BitVec n) : Polynomial (ZMod 2) :=
  ∑ i ∈ Finset.range n, if v.getLsbD i then Polynomial.X ^ i else 0

/-- R60, R3: gfmul is polynomial multiplication over GF(2) reduced modulo x^8 + x^4 + x^3 + x + 1: the product of the two
polynomials and the polynomial of the result differ by a multiple of the modulus (the result has degree below 8, being a
byte). -/
def Obligations.GfmulIsProductModuloPolynomial : Prop :=
  ∀ a b : Byte,
    (Polynomial.X ^ 8 + Polynomial.X ^ 4 + Polynomial.X ^ 3 + Polynomial.X + 1 : Polynomial (ZMod 2)) ∣
      asPolynomial a * asPolynomial b - asPolynomial (gfmul a b)

/-- R61, R62: gfinv(a) is the unique b with gfmul(a, b) = 0x01 for a ≠ 0, equals a^254, and is no value for 0; gfdiv(a, b) is
gfmul(a, gfinv(b)), and no value for b = 0. -/
def Obligations.GfinvIsTheUniqueInverse : Prop :=
  (∀ a : Byte, a ≠ 0#8 → ∃ b, gfinv a = some b ∧ gfmul a b = 1#8 ∧ (∀ c, gfmul a c = 1#8 → c = b) ∧ b = gfpow a 254) ∧
  gfinv 0#8 = none ∧
  (∀ a b : Byte, b ≠ 0#8 → ∃ c, gfinv b = some c ∧ gfdiv a b = some (gfmul a c)) ∧
  (∀ a : Byte, gfdiv a 0#8 = none)

/-! ### Field commands -/

/-- R65: ADD. Encoding, result, completion, no error, and everything else unchanged; the rule's corner cases and example. -/
def Obligations.AddWritesXor : Prop :=
  ∀ (rd rs1 rs2 : Reg) (s : State),
    decode (0x01000000#32 ||| placeReg rd 20 ||| placeReg rs1 16 ||| placeReg rs2 12) = some (.add rd rs1 rs2) ∧
    ∃ t, exec (.add rd rs1 rs2) s = .next t ∧ CompletedWith none s t ∧
      WritesOnly rd (readG s rs1 ^^^ readG s rs2) s t ∧
      (rs1 = rs2 → readG t rd = 0#8) ∧
      (readG s rs1 = 0#8 → readG t rd = readG s rs2) ∧ (readG s rs2 = 0#8 → readG t rd = readG s rs1) ∧
      (readG s rs1 = 0x57#8 → readG s rs2 = 0x83#8 → readG t rd = 0xD4#8)

/-- R66: MUL. Encoding, result, completion, no error, and everything else unchanged; the rule's corner cases and example. -/
def Obligations.MulWritesProduct : Prop :=
  ∀ (rd rs1 rs2 : Reg) (s : State),
    decode (0x02000000#32 ||| placeReg rd 20 ||| placeReg rs1 16 ||| placeReg rs2 12) = some (.mul rd rs1 rs2) ∧
    ∃ t, exec (.mul rd rs1 rs2) s = .next t ∧ CompletedWith none s t ∧
      WritesOnly rd (gfmul (readG s rs1) (readG s rs2)) s t ∧
      (readG s rs1 = 0#8 ∨ readG s rs2 = 0#8 → readG t rd = 0#8) ∧
      (readG s rs1 = 1#8 → readG t rd = readG s rs2) ∧ (readG s rs2 = 1#8 → readG t rd = readG s rs1) ∧
      (readG s rs1 = 0xFF#8 → readG s rs2 = 0xFF#8 → readG t rd = 0x13#8) ∧
      (readG s rs1 = 0x57#8 → readG s rs2 = 0x83#8 → readG t rd = 0xC1#8)

/-- R67: INV. For a nonzero operand the inverse is written; for 0x00 DivideByZero is raised and nothing is written. -/
def Obligations.InvWritesInverseOrDivideByZero : Prop :=
  ∀ (rd rs1 : Reg) (s : State),
    decode (0x03000000#32 ||| placeReg rd 20 ||| placeReg rs1 16) = some (.inv rd rs1) ∧
    (readG s rs1 ≠ 0#8 →
      ∃ t b, exec (.inv rd rs1) s = .next t ∧ CompletedWith none s t ∧ gfmul (readG s rs1) b = 1#8 ∧ WritesOnly rd b s t ∧
        (readG s rs1 = 1#8 → b = 1#8) ∧ (readG s rs1 = 0x53#8 → b = 0xCA#8) ∧
        (∃ u, exec (.inv rd rd) t = .next u ∧ CompletedWith none t u ∧ WritesOnly rd (readG s rs1) t u)) ∧
    (readG s rs1 = 0#8 →
      ∃ t, exec (.inv rd rs1) s = .next t ∧ CompletedWith (some .divideByZero) s t ∧ WritesNothing s t)

/-- R68: DIV. For a nonzero divisor the quotient is written; for 0x00 DivideByZero is raised, whatever the dividend is, and
nothing is written. -/
def Obligations.DivWritesQuotientOrDivideByZero : Prop :=
  ∀ (rd rs1 rs2 : Reg) (s : State),
    decode (0x04000000#32 ||| placeReg rd 20 ||| placeReg rs1 16 ||| placeReg rs2 12) = some (.div rd rs1 rs2) ∧
    (readG s rs2 ≠ 0#8 →
      ∃ t c, exec (.div rd rs1 rs2) s = .next t ∧ CompletedWith none s t ∧ gfmul (readG s rs2) c = 1#8 ∧
        WritesOnly rd (gfmul (readG s rs1) c) s t ∧
        (readG s rs1 = 0#8 → readG t rd = 0#8) ∧ (readG s rs2 = 1#8 → readG t rd = readG s rs1) ∧
        (rs1 = rs2 → readG t rd = 1#8) ∧
        (readG s rs1 = 0xC1#8 → readG s rs2 = 0x83#8 → readG t rd = 0x57#8)) ∧
    (readG s rs2 = 0#8 →
      ∃ t, exec (.div rd rs1 rs2) s = .next t ∧ CompletedWith (some .divideByZero) s t ∧ WritesNothing s t)

/-! ### Polynomial commands -/

/-- R69: EVAL. RangeExceeded for k = 0; otherwise Horner's method over C[0..k-1] (written out here as the loop that runs i from
k-2 down to 0 on an accumulator that starts at C[k-1]), with C[0] at x = 0; the rule's corner cases and example. -/
def Obligations.EvalRunsHorner : Prop :=
  ∀ (rd rs1 rs2 : Reg) (s : State),
    decode (0x10000000#32 ||| placeReg rd 20 ||| placeReg rs1 16 ||| placeReg rs2 12) = some (.eval rd rs1 rs2) ∧
    (readG s rs2 = 0#8 →
      ∃ t, exec (.eval rd rs1 rs2) s = .next t ∧ CompletedWith (some .rangeExceeded) s t ∧ WritesNothing s t) ∧
    (readG s rs2 ≠ 0#8 →
      ∃ t v, exec (.eval rd rs1 rs2) s = .next t ∧ CompletedWith none s t ∧ WritesOnly rd v s t ∧
        v = (List.range ((readG s rs2).toNat - 1)).reverse.foldl
              (fun acc i => s.C.read i ^^^ gfmul acc (readG s rs1)) (s.C.read ((readG s rs2).toNat - 1)) ∧
        (readG s rs2 = 1#8 → v = s.C.read 0) ∧
        (readG s rs1 = 0#8 → v = s.C.read 0) ∧
        (readG s rs1 = 1#8 → v = (List.range (readG s rs2).toNat).foldl (fun acc i => acc ^^^ s.C.read i) 0#8) ∧
        (readG s rs1 = 2#8 → readG s rs2 = 3#8 → s.C.read 0 = 0x2A#8 → s.C.read 1 = 0x07#8 → s.C.read 2 = 0x13#8 →
          v = 0x68#8))

/-- R70: EVAL's result is the field sum of gfmul(C[i], x^i), and starting the accumulator at 0x00 and the loop at i = k-1 gives
the same value. -/
def Obligations.EvalEqualsPolynomialSum : Prop :=
  ∀ (rd rs1 rs2 : Reg) (s : State), 1 ≤ countOf s rs2 →
    ∃ t, exec (.eval rd rs1 rs2) s = .next t ∧ CompletedWith none s t ∧
      WritesOnly rd (polySum s.C (countOf s rs2) (readG s rs1)) s t ∧
      (List.range (countOf s rs2)).reverse.foldl (fun acc i => gfadd (s.C.read i) (gfmul acc (readG s rs1))) 0#8 =
        polySum s.C (countOf s rs2) (readG s rs1)

/-- R71, the checks: unequal lengths, then a zero length, then a repeated coordinate; the first that fails is reported, and
nothing is written. X[255] is outside every length, so it is never compared. -/
def Obligations.InterpChecksInOrder : Prop :=
  ∀ (rd rs1 rs2 rs3 : Reg) (s : State),
    (readG s rs2 ≠ readG s rs3 →
      ∃ t, exec (.interp rd rs1 rs2 rs3) s = .next t ∧ CompletedWith (some .inconsistentInputLengths) s t ∧
        WritesNothing s t) ∧
    (readG s rs2 = readG s rs3 → readG s rs2 = 0#8 →
      ∃ t, exec (.interp rd rs1 rs2 rs3) s = .next t ∧ CompletedWith (some .rangeExceeded) s t ∧ WritesNothing s t) ∧
    (readG s rs2 = readG s rs3 → readG s rs2 ≠ 0#8 → ¬ Distinct s.X (readG s rs2).toNat →
      ∃ t, exec (.interp rd rs1 rs2 rs3) s = .next t ∧ CompletedWith (some .duplicateCoordinate) s t ∧
        WritesNothing s t)

/-- R71, the result: with equal nonzero lengths and distinct coordinates INTERP succeeds (DivideByZero cannot arise), and writes
the Lagrange sum, here with each quotient by b written as a product with b^254 (R61). -/
def Obligations.InterpWritesLagrangeSum : Prop :=
  ∀ (rd rs1 rs2 rs3 : Reg) (s : State),
    readG s rs2 = readG s rs3 → readG s rs2 ≠ 0#8 → Distinct s.X (readG s rs2).toNat →
    ∃ t, exec (.interp rd rs1 rs2 rs3) s = .next t ∧ CompletedWith none s t ∧
      WritesOnly rd (lagrangeSum s.X s.Y (readG s rs2).toNat (readG s rs1)) s t

/-- R71, the corner cases: one point gives Y[0] for every z, and z equal to X[m] gives Y[m]. -/
def Obligations.InterpReturnsSampleValues : Prop :=
  ∀ (rd rs1 rs2 rs3 : Reg) (s : State) (m : Nat),
    readG s rs2 = readG s rs3 → m < (readG s rs2).toNat → Distinct s.X (readG s rs2).toNat →
    readG s rs2 = 1#8 ∨ readG s rs1 = s.X.read m →
    ∃ t, exec (.interp rd rs1 rs2 rs3) s = .next t ∧ CompletedWith none s t ∧ WritesOnly rd (s.Y.read m) s t

/-- R72, first and second sentence: when the points lie on a polynomial f of degree at most k-1 (given by its coefficients in a
bank of its own), INTERP returns f(z), and at z = 0 the intercept of f. -/
def Obligations.InterpRecoversPolynomial : Prop :=
  ∀ (rd rs1 rs2 rs3 : Reg) (s : State) (f : Memory),
    readG s rs2 = readG s rs3 → readG s rs2 ≠ 0#8 → Distinct s.X (readG s rs2).toNat →
    (∀ i, i < (readG s rs2).toNat → s.Y.read i = polySum f (readG s rs2).toNat (s.X.read i)) →
    ∃ t, exec (.interp rd rs1 rs2 rs3) s = .next t ∧ CompletedWith none s t ∧
      WritesOnly rd (polySum f (readG s rs2).toNat (readG s rs1)) s t ∧
      (readG s rs1 = 0#8 → readG t rd = f.read 0)

/-- R72, third sentence: the result does not change when the same permutation is applied to X[0..k-1] and Y[0..k-1]. -/
def Obligations.InterpIsOrderIndependent : Prop :=
  ∀ (rd rs1 rs2 rs3 : Reg) (s : State) (x' y' : Memory) (p : Nat → Nat),
    readG s rs2 = readG s rs3 → readG s rs2 ≠ 0#8 → Distinct s.X (readG s rs2).toNat →
    (∀ i, i < (readG s rs2).toNat → p i < (readG s rs2).toNat) →
    (∀ i j, i < (readG s rs2).toNat → j < (readG s rs2).toNat → p i = p j → i = j) →
    (∀ i, i < (readG s rs2).toNat → x'.read i = s.X.read (p i) ∧ y'.read i = s.Y.read (p i)) →
    ∃ t u, exec (.interp rd rs1 rs2 rs3) s = .next t ∧
      exec (.interp rd rs1 rs2 rs3) { s with X := x', Y := y' } = .next u ∧
      t.err = 0#8 ∧ u.err = 0#8 ∧ readG u rd = readG t rd

/-! ### Coordinate selector -/

/-- R74: PICK. RangeExceeded for n = 0, with no draw used; RandomnessFailure when a draw is answered with FAIL, with X[0..254] all
0x00; success when the shuffle over the answers makes its n steps, with the shuffled bank in X; and while a request has no
answer the command stays in progress. G, C, Y and X[255] are never written. -/
def Obligations.PickShufflesAnswers : Prop :=
  ∀ (rs1 : Reg) (s : State), banksWf s = true →
    decode (0x20000000#32 ||| placeReg rs1 16) = some (.pick rs1) ∧
    (readG s rs1 = 0#8 →
      ∃ t, exec (.pick rs1) s = .next t ∧ CompletedWith (some .rangeExceeded) s t ∧ WritesNothing s t) ∧
    (∀ rest, readG s rs1 ≠ 0#8 → pickResult s rs1 = .failed rest →
      ∃ t, exec (.pick rs1) s = .next t ∧ CompletedWith (some .randomnessFailure) s t ∧ SameRegs s t ∧
        (∀ a : Nat, t.C.read a = s.C.read a ∧ t.Y.read a = s.Y.read a ∧
          t.X.read a = if a < 255 then 0#8 else s.X.read a)) ∧
    (∀ x rest, readG s rs1 ≠ 0#8 → pickResult s rs1 = .selected x rest →
      ∃ t, exec (.pick rs1) s = .next t ∧ CompletedWith none s t ∧ SameRegs s t ∧
        (∀ a : Nat, t.C.read a = s.C.read a ∧ t.Y.read a = s.Y.read a ∧ t.X.read a = x.read a ∧
          (255 ≤ a → t.X.read a = s.X.read a))) ∧
    (readG s rs1 ≠ 0#8 → pickResult s rs1 = .waiting → exec (.pick rs1) s = .next s)

/-- R74, the shuffle: it starts at step 0 from X[t] = t + 1 for t = 0..254, and goes one draw at a time. With all n steps made it ends and uses no further answer; FAIL ends it; a byte below the
limit 256 - (256 mod m), m = 255 - i, swaps X[i] with X[i + (r mod m)] and goes on to step i + 1; any other byte is drawn again;
without an answer it waits. -/
def Obligations.ShuffleFollowsTheRule : Prop :=
  (∀ (s : State) (rs1 : Reg), s.X.wf = true →
    ∃ x, pickResult s rs1 = shuffle (readG s rs1).toNat s.draws 0 x ∧ x.wf = true ∧
      ∀ a : Nat, x.read a = if a < 255 then BitVec.ofNat 8 (a + 1) else s.X.read a) ∧
  ∀ (n i : Nat) (x : Memory) (r : Byte) (ds : List Draw), n ≤ 255 → x.wf = true →
    (n ≤ i → shuffle n ds i x = .selected x ds) ∧
    (i < n → shuffle n [] i x = .waiting ∧ shuffle n (.fail :: ds) i x = .failed ds) ∧
    (i < n → 256 - 256 % (255 - i) ≤ r.toNat → shuffle n (.byte r :: ds) i x = shuffle n ds i x) ∧
    (i < n → r.toNat < 256 - 256 % (255 - i) →
      ∃ x', shuffle n (.byte r :: ds) i x = shuffle n ds (i + 1) x' ∧ x'.wf = true ∧
        ∀ a, x'.read a =
          if a = i then x.read (i + r.toNat % (255 - i))
          else if a = i + r.toNat % (255 - i) then x.read i
          else x.read a)

/-- R75, first sentence: after a PICK that completes with ERR = 0x00, X[0..254] is a permutation of 0x01..0xFF, so its first n
elements are pairwise distinct and nonzero. -/
def Obligations.PickSelectsAPermutation : Prop :=
  ∀ (rs1 : Reg) (s t : State), banksWf s = true → exec (.pick rs1) s = .next t → s.busy = true → t.busy = false →
    t.err = 0#8 →
    ((List.range 255).map t.X.read).Perm ((List.range 255).map fun i => BitVec.ofNat 8 (i + 1)) ∧
    Distinct t.X (countOf s rs1) ∧ (∀ i, i < countOf s rs1 → t.X.read i ≠ 0#8) ∧
    t.X.read 255 = s.X.read 255

/-- R76: a PICK that succeeds has made at least n draws, and a draw is rejected for exactly 256 mod m of the 256 bytes, which is
at most 127, at m = 129. -/
def Obligations.PickDrawCounts : Prop :=
  (∀ (rs1 : Reg) (s : State) (x : Memory) (rest : List Draw), pickResult s rs1 = .selected x rest →
    countOf s rs1 + rest.length ≤ s.draws.length ∧ rest <:+ s.draws) ∧
  (∀ i, i < 255 →
    (allBytes.filter fun r => decide (drawLimit i ≤ r.toNat)).length = 256 % (255 - i) ∧ 256 % (255 - i) ≤ 127) ∧
  256 % (255 - 126) = 127

/-- R75: the limit is a multiple of m, so every swap index of a step comes from equally many accepted bytes. -/
def Obligations.PickSwapIndexIsUnbiased : Prop :=
  ∀ i q, i < 255 → q < 255 - i →
    (allBytes.filter fun r => decide (r.toNat < drawLimit i) && decide (r.toNat % (255 - i) = q)).length * (255 - i) =
      256 - 256 % (255 - i)

/-! ### System commands -/

/-- R77: NOP does nothing but complete; only the word 0x00000000 is NOP. -/
def Obligations.NopOnlyCompletes : Prop :=
  (∀ w : Word, decode w = some .nop ↔ w = 0#32) ∧
  (∀ s : State, ∃ t, exec .nop s = .next t ∧ CompletedWith none s t ∧ WritesNothing s t) ∧
  decode State.reset.cmd = some .nop ∧ State.reset.busy = false

/-- R78: WIPE zeroes exactly what its mask selects, all 256 elements of a bank and all 16 registers, and raises no error. -/
def Obligations.WipeZeroesTheSelected : Prop :=
  ∀ (mask : WipeMask) (s : State),
    decode (0x30000000#32 ||| (mask.zeroExtend 32 <<< 20)) = some (.wipe mask) ∧
    ∃ t, exec (.wipe mask) s = .next t ∧ CompletedWith none s t ∧
      (∀ a : Nat, t.C.read a = if mask.getLsbD 0 then 0#8 else s.C.read a) ∧
      (∀ a : Nat, t.X.read a = if mask.getLsbD 1 then 0#8 else s.X.read a) ∧
      (∀ a : Nat, t.Y.read a = if mask.getLsbD 2 then 0#8 else s.Y.read a) ∧
      (∀ r : Reg, readG t r = if mask.getLsbD 3 then 0#8 else readG s r)

/-! ### Encoding -/

/-- R53: decode agrees with the match and mask columns of R52: a word is illegal exactly when no row matches it; a decoded word is
of the row of its command and the command has the word's fields; no two rows match one word. -/
def Obligations.DecodeMatchesTheOpcodeRows : Prop :=
  ∀ w : Word,
    (decode w = none ↔ ∀ row ∈ opcodeRows, row.matches w = false) ∧
    (∀ i, decode w = some i →
      i.fields = wordFields w ∧ ∃ row ∈ opcodeRows, row.mnemonic = i.mnemonic ∧ row.matches w = true) ∧
    (∀ row ∈ opcodeRows, ∀ row' ∈ opcodeRows, row.matches w = true → row'.matches w = true → row = row')

/-- Every command decodes from its own word, with every operand at every value its field admits, and is well-formed. -/
def Obligations.DecodeOfEncodeIsTheCommand : Prop :=
  ∀ i : Instr, i.wellFormed = true ∧ decode (encode i) = some i

/-- Every legal word has one command, and that command's word is the word itself, so no bit of a legal word is dropped. -/
def Obligations.EncodeOfDecodeIsTheWord : Prop :=
  ∀ (w : Word) (i : Instr), decode w = some i → encode i = w

/-- R54: a word is illegal in exactly three cases. It is accepted all the same, and when it executes it raises IllegalCommand and
changes nothing but STATUS. -/
def Obligations.IllegalWordsRaiseIllegalCommand : Prop :=
  ∀ w : Word,
    (decode w = none ↔
      (wordFields w).op ∉ [0x00#8, 0x01#8, 0x02#8, 0x03#8, 0x04#8, 0x10#8, 0x11#8, 0x20#8, 0x30#8] ∨
      (wordFields w).rsv ≠ 0#8 ∨ (wordFields w).unusedZero = false) ∧
    (decode w = none ↔ (wordFields w).wellFormed = false) ∧
    (∀ s : State, s.busy = false →
      (cmdWrite w s).cmd = w ∧ (cmdWrite w s).busy = true) ∧
    (∀ s : State, decode w = none → s.cmd = w → s.busy = true →
      ∃ t, sequencerTurn s = .next t ∧ CompletedWith (some .illegalCommand) s t ∧ t.err = 0x06#8 ∧ WritesNothing s t)

/-- Words written out from the table of R57 and the vectors of 95_test_vectors.md decode to the commands they stand for. -/
def Obligations.SampleWordsDecode : Prop :=
  decode 0x00000000#32 = some .nop ∧
  decode 0x01312000#32 = some (.add 3 1 2) ∧
  decode 0x02981000#32 = some (.mul 9 8 1) ∧
  decode 0x03210000#32 = some (.inv 2 1) ∧
  decode 0x04752000#32 = some (.div 7 5 2) ∧
  decode 0x1041F000#32 = some (.eval 4 1 15) ∧
  decode 0x11012300#32 = some (.interp 0 1 2 3) ∧
  decode 0x20010000#32 = some (.pick 1) ∧
  decode 0x30900000#32 = some (.wipe 0b1001#4) ∧
  decode 0x20110000#32 = none ∧ decode 0x01312100#32 = none ∧ decode 0x05000000#32 = none

/-! ### Execution, completion and errors -/

/-- R56: while BUSY = 1 the sequencer's step decodes CMD and performs that command; it is the next step when the sequencer's turn is
next. Only PICK's step can wait, on the entropy port. The word that `withFetchWord` loads is run by the very next step. -/
def Obligations.StepRunsTheDecodedCommand : Prop :=
  (∀ (s : State) (i : Instr), s.busy = true → decode s.cmd = some i →
    (s.inputs = [] → step s = exec i s) ∧
    (∀ rest, s.inputs = .sequencer :: rest → step s = exec i { s with inputs := rest })) ∧
  (∀ (i : Instr) (s : State), (∀ rs1, i ≠ .pick rs1) → ∃ t, exec i s = .next t ∧ t.busy = false) ∧
  (∀ (s : State) (w : Nat) (i : Instr), decode (BitVec.ofNat 32 w) = some i → w < 2 ^ 32 →
    step (s.withFetchWord 32 w) = exec i (s.withFetchWord 32 w) ∧ (s.withFetchWord 32 w).cmd = BitVec.ofNat 32 w)

/-- R83: every turn of the sequencer that ends a command is a completion: it clears BUSY, sets DONE, sets ERR to 0x00 or to the code of
one error kind, and leaves CMD, OVR, HAZ and IE unchanged. The only turn that does not end the command is that of a PICK that waits
for the entropy port, and it changes nothing. -/
def Obligations.SequencerTurnCompletes : Prop :=
  ∀ s : State, s.busy = true →
    ∃ t, sequencerTurn s = .next t ∧
      ((t = s ∧ ∃ i, decode s.cmd = some i ∧ awaitsEntropy i s) ∨ ∃ e, CompletedWith e s t)

/-- R84, R86: a command that raises an error writes no operand register and no bank element, but for a PICK that raises
RandomnessFailure, which sets X[0..254] to 0x00. -/
def Obligations.FailedCommandsWriteNothing : Prop :=
  ∀ (s t : State), banksWf s = true → s.busy = true → sequencerTurn s = .next t → t.busy = false → t.err ≠ 0#8 →
    SameRegs s t ∧
    (∀ a : Nat, t.C.read a = s.C.read a ∧ t.Y.read a = s.Y.read a ∧
      t.X.read a =
        if t.err = ErrorKind.randomnessFailure.code ∧ a < 255 then 0#8 else s.X.read a) ∧
    (t.err = ErrorKind.randomnessFailure.code → ∃ rs1, decode s.cmd = some (.pick rs1))

/-- R85: decoding is checked first; then the error a command reports is the first failing check of the rule's table. -/
def Obligations.FirstFailingCheckIsReported : Prop :=
  ∀ s : State, s.busy = true →
    (decode s.cmd = none → ∃ t, sequencerTurn s = .next t ∧ CompletedWith (some .illegalCommand) s t) ∧
    (∀ i, decode s.cmd = some i → ¬ awaitsEntropy i s →
      ∃ t, sequencerTurn s = .next t ∧ CompletedWith (firstError i s) s t)

/-! ### Host accesses -/

/-- R32: an access is legal exactly when it is 4 bytes wide, 4-aligned and mapped; any other gets a bus error, with no value, and no
state of the core changes, whether or not a command runs. -/
def Obligations.IllegalAccessesGetABusError : Prop :=
  (∀ (off : Offset) (width : Nat),
    (place off width).isSome = true ↔
      width = 4 ∧ off.toNat % 4 = 0 ∧
        (off.toNat < 0x010 ∨ (0x040 ≤ off.toNat ∧ off.toNat < 0x080) ∨ 0x400 ≤ off.toNat)) ∧
  (∀ (s : State) (off : Offset) (width : Nat) (v : Word) (rest : List Input), place off width = none →
    (s.inputs = .read off width :: rest → step s = .next { s with inputs := rest, response := some .busError }) ∧
    (s.inputs = .write off width v :: rest → step s = .next { s with inputs := rest, response := some .busError }))

/-- R33: the window map: each place is at the one offset the table gives it. -/
def Obligations.WindowMapIsExact : Prop :=
  (∀ i : Fin 16, place (BitVec.ofNat 12 (0x040 + 4 * i.val)) 4 = some (.g i)) ∧
  (∀ i : Fin 256,
    place (BitVec.ofNat 12 (0x400 + 4 * i.val)) 4 = some (.c i) ∧
    place (BitVec.ofNat 12 (0x800 + 4 * i.val)) 4 = some (.x i) ∧
    place (BitVec.ofNat 12 (0xC00 + 4 * i.val)) 4 = some (.y i)) ∧
  place 0x000#12 4 = some .cmd ∧ place 0x004#12 4 = some .status ∧ place 0x008#12 4 = some .ctrl ∧
  place 0x00C#12 4 = some .id ∧
  (∀ (off : Offset) (p : Place), place off 4 = some p → p.offset = off)

/-- R36, R34, R39: what a legal read returns, and that it changes nothing but HAZ, by a storage read while busy. -/
def Obligations.HostReadReturnsTheRuleValue : Prop :=
  ∀ (s : State) (off : Offset),
    (∀ width, place off width = none → memRead off width s = (s, .busError)) ∧
    (place off 4 = some .cmd → memRead off 4 s = (s, .data s.cmd)) ∧
    (place off 4 = some .status →
      memRead off 4 s =
        (s, .data ((s.err.zeroExtend 32 <<< 8) ||| (if s.haz then 8#32 else 0#32) ||| (if s.ovr then 4#32 else 0#32) |||
          (if s.done then 2#32 else 0#32) ||| (if s.busy then 1#32 else 0#32)))) ∧
    (place off 4 = some .ctrl → memRead off 4 s = (s, .data (if s.ie then 1#32 else 0#32))) ∧
    (place off 4 = some .id → memRead off 4 s = (s, .data 0x47463801#32)) ∧
    (∀ p, place off 4 = some p → p.isStorage = true →
      memRead off 4 s =
        if s.busy then ({ s with haz := true }, .data 0#32) else (s, .data ((storedAt s p).zeroExtend 32)))

/-- R37: what a legal write does, place by place, over the state it finds. -/
def Obligations.HostWriteHasTheRuleEffect : Prop :=
  ∀ (s : State) (off : Offset) (v : Word), banksWf s = true →
    (∀ width, place off width = none → memWrite off width v s = (s, .busError)) ∧
    (place off 4 = some .cmd →
      memWrite off 4 v s =
        (if s.busy then { s with ovr := true } else { s with cmd := v, busy := true, done := false, err := 0#8 }, .ack)) ∧
    (place off 4 = some .status →
      ∃ t, memWrite off 4 v s = (t, .ack) ∧
        (t.done = if v.getLsbD 1 then false else s.done) ∧ (t.ovr = if v.getLsbD 2 then false else s.ovr) ∧
        (t.haz = if v.getLsbD 3 then false else s.haz) ∧ t.busy = s.busy ∧ t.err = s.err ∧ t.cmd = s.cmd ∧ t.ie = s.ie ∧
        t.draws = s.draws ∧ WritesNothing s t) ∧
    (place off 4 = some .ctrl →
      memWrite off 4 v s =
        (if v.getLsbD 1 then { State.reset with inputs := s.inputs, response := s.response }
          else { s with ie := v.getLsbD 0 }, .ack)) ∧
    (place off 4 = some .id → memWrite off 4 v s = (s, .ack)) ∧
    (∀ p, place off 4 = some p → p.isStorage = true → s.busy = true →
      memWrite off 4 v s = ({ s with haz := true }, .ack)) ∧
    (∀ p, place off 4 = some p → p.isStorage = true → s.busy = false →
      ∃ t, memWrite off 4 v s = (t, .ack) ∧ storedAt t p = v.extractLsb' 0 8 ∧
        (∀ q, q.isStorage = true → q ≠ p → storedAt t q = storedAt s q) ∧
        t.busy = false ∧ t.done = s.done ∧ t.err = s.err ∧ t.draws = s.draws ∧ SameRest s t)

/-- R34: a write to an element word followed by a read of it returns bits [7:0] of the written value with bits [31:8] 0, and no
other element changes. -/
def Obligations.ElementWordsReadBack : Prop :=
  ∀ (s : State) (p : Place) (off : Offset) (v : Word), banksWf s = true → s.busy = false →
    place off 4 = some p → p.isStorage = true →
    ∃ t, memWrite off 4 v s = (t, .ack) ∧ memRead off 4 t = (t, .data (v &&& 0xFF#32)) ∧
      ∀ q, q.isStorage = true → q ≠ p → storedAt t q = storedAt s q

/-- R38: a CMD write while idle is accepted and starts the command; while busy it is dropped and sets OVR. OVR and HAZ are unchanged by
acceptance, and acceptance takes every word. -/
def Obligations.CmdWriteIsAcceptedOrDropped : Prop :=
  ∀ (s : State) (v : Word) (rest : List Input), s.inputs = .write 0x000#12 4 v :: rest →
    (s.busy = false →
      step s = .next { s with cmd := v, busy := true, done := false, err := 0#8, inputs := rest, response := some .ack }) ∧
    (s.busy = true → step s = .next { s with ovr := true, inputs := rest, response := some .ack })

/-- R39: while BUSY = 1 a read of operand storage returns 0 and a write of it is dropped; either sets HAZ, and nothing else
changes. -/
def Obligations.BusyStorageAccessIsRefused : Prop :=
  ∀ (s : State) (off : Offset) (p : Place) (v : Word) (rest : List Input),
    s.busy = true → place off 4 = some p → p.isStorage = true →
    (s.inputs = .read off 4 :: rest →
      step s = .next { s with haz := true, inputs := rest, response := some (.data 0#32) }) ∧
    (s.inputs = .write off 4 v :: rest →
      step s = .next { s with haz := true, inputs := rest, response := some .ack })

/-- R43: reads of CMD, STATUS, CTRL and ID, and storage reads while idle, change nothing; every legal write but one to CMD, or to CTRL
with bit 1 = 1, is idempotent. -/
def Obligations.SideEffectsOfAccesses : Prop :=
  ∀ (s : State) (off : Offset) (p : Place) (v : Word), banksWf s = true → place off 4 = some p →
    (p.isStorage = false ∨ s.busy = false → (memRead off 4 s).1 = s) ∧
    (p.isStorage = true → s.busy = true → (memRead off 4 s).1 = { s with haz := true }) ∧
    (p ≠ .cmd → ¬ (p = .ctrl ∧ v.getLsbD 1 = true) →
      (memWrite off 4 v (memWrite off 4 v s).1).1 = (memWrite off 4 v s).1)

/-! ### STATUS, CTRL, ID and the interrupt -/

/-- R17: the fields of the STATUS word, bit by bit; a STATUS write clears DONE, OVR and HAZ where it holds a 1 and leaves every other bit
of the word as it was. -/
def Obligations.StatusWordFields : Prop :=
  ∀ (s : State) (v : Word) (k : Nat),
    ((statusWord s).getLsbD k =
      (if k = 0 then s.busy else if k = 1 then s.done else if k = 2 then s.ovr else if k = 3 then s.haz
        else if 8 ≤ k ∧ k < 16 then s.err.getLsbD (k - 8) else false)) ∧
    ((statusWord (memWrite 0x004#12 4 v s).1).getLsbD k =
      ((statusWord s).getLsbD k && !(v.getLsbD k && decide (1 ≤ k ∧ k ≤ 3))))

/-- R18: BUSY is set only by the acceptance of a command, and cleared only by its completion or by reset. -/
def Obligations.BusyChangesOnlyByRule : Prop :=
  ∀ s t : State, step s = .next t →
    (s.busy = false → t.busy = true → ∃ v, HostWrites s .cmd v) ∧
    (s.busy = true → t.busy = false → SequencerRuns s ∨ ResetNext s) ∧
    (s.busy = false → (∃ v, HostWrites s .cmd v) → t.busy = true) ∧
    (ResetNext s → t.busy = false)

/-- R19: DONE is cleared by acceptance, set by completion, whether success or failure, and otherwise changed only by a STATUS write
with bit 1 = 1 or by reset. -/
def Obligations.DoneChangesOnlyByRule : Prop :=
  ∀ s t : State, step s = .next t →
    (s.busy = false → (∃ v, HostWrites s .cmd v) → t.done = false) ∧
    (SequencerRuns s → t.busy = false → t.done = true) ∧
    (s.done = false → t.done = true → SequencerRuns s ∧ t.busy = false) ∧
    (s.done = true → t.done = false →
      (∃ v, HostWrites s .status v ∧ v.getLsbD 1 = true) ∨ (s.busy = false ∧ ∃ v, HostWrites s .cmd v) ∨ ResetNext s)

/-- R20, R21: OVR is set by a CMD write while busy, HAZ by a storage access while busy, and by nothing else; each stays 1 until a
STATUS write with its bit 1, or reset. -/
def Obligations.OvrAndHazAreSticky : Prop :=
  ∀ s t : State, step s = .next t →
    (s.busy = true → (∃ v, HostWrites s .cmd v) → t.ovr = true) ∧
    (s.ovr = false → t.ovr = true → s.busy = true ∧ ∃ v, HostWrites s .cmd v) ∧
    (s.ovr = true → t.ovr = false → (∃ v, HostWrites s .status v ∧ v.getLsbD 2 = true) ∨ ResetNext s) ∧
    (s.busy = true → (∃ p v, p.isStorage = true ∧ (HostReads s p ∨ HostWrites s p v)) → t.haz = true) ∧
    (s.haz = false → t.haz = true →
      s.busy = true ∧ ∃ p, p.isStorage = true ∧ (HostReads s p ∨ ∃ v, HostWrites s p v)) ∧
    (s.haz = true → t.haz = false → (∃ v, HostWrites s .status v ∧ v.getLsbD 3 = true) ∨ ResetNext s)

/-- R22: ERR is set to 0x00 when a command is accepted and by reset, to the outcome's code at completion, and changes at no other
time; the core writes only the codes 0x00 to 0x06. -/
def Obligations.ErrHoldsTheLastOutcome : Prop :=
  ∀ s t : State, step s = .next t →
    (s.busy = false → (∃ v, HostWrites s .cmd v) → t.err = 0#8) ∧
    (SequencerRuns s → t.busy = false → ∃ e, t.err = outcomeCode e ∧
      (decode s.cmd = none → e = some .illegalCommand) ∧
      (∀ i, decode s.cmd = some i → e = firstError i s)) ∧
    (t.err ≠ s.err → (SequencerRuns s ∧ t.busy = false) ∨ (s.busy = false ∧ ∃ v, HostWrites s .cmd v) ∨ ResetNext s) ∧
    (t.err = s.err ∨ t.err.toNat ≤ 6)

/-- R25: a CTRL write with bit 1 = 1 is the soft reset, whatever the other bits hold and even while busy, and leaves IE = 0; with bit 1 = 0
it sets IE to bit 0 and has no other effect. -/
def Obligations.CtrlWriteResetsOrSetsIe : Prop :=
  ∀ (s : State) (v : Word) (rest : List Input), s.inputs = .write 0x008#12 4 v :: rest →
    (v.getLsbD 1 = true →
      ∃ t, step s = .next t ∧ t = { State.reset with inputs := rest, response := some .ack } ∧ t.ie = false) ∧
    (v.getLsbD 1 = false →
      step s = .next { s with ie := v.getLsbD 0, inputs := rest, response := some .ack })

/-- R89: the interrupt line is DONE and IE. It can rise only by a completion or by enabling it, and a STATUS write with bit 1 = 1, a
CTRL write of IE = 0, the acceptance of a command and a reset each deassert it. Which line it drives is the platform's. -/
def Obligations.InterruptLineFollowsDoneAndIe : Prop :=
  (∀ s : State, irq s = true ↔ s.done = true ∧ s.ie = true) ∧
  (∀ s t : State, step s = .next t → irq s = false → irq t = true →
    (SequencerRuns s ∧ t.busy = false) ∨ (s.done = true ∧ ∃ v, HostWrites s .ctrl v ∧ v.getLsbD 0 = true)) ∧
  (∀ s t : State, step s = .next t →
    (∃ v, HostWrites s .status v ∧ v.getLsbD 1 = true) ∨ (∃ v, HostWrites s .ctrl v ∧ v.getLsbD 0 = false) ∨
      (s.busy = false ∧ ∃ v, HostWrites s .cmd v) ∨ ResetNext s → irq t = false) ∧
  (∀ (p : Platform) (line : Nat) (s : State), platformIrq p line s = true ↔ line = p.irqLine ∧ irq s = true)

/-! ### Reset, invariants and whole-machine rules -/

/-- R29: every field of the state record has the reset value of the rule's table, no entropy answer is held, and ID reads its
constant. -/
def Obligations.ResetValues : Prop :=
  (∀ r : Reg, readG State.reset r = 0#8) ∧
  (∀ a : Nat, State.reset.C.read a = 0#8 ∧ State.reset.X.read a = 0#8 ∧ State.reset.Y.read a = 0#8) ∧
  State.reset.cmd = 0#32 ∧ State.reset.busy = false ∧ State.reset.done = false ∧ State.reset.ovr = false ∧
  State.reset.haz = false ∧ State.reset.err = 0#8 ∧ State.reset.ie = false ∧ State.reset.draws = [] ∧
  memRead 0x00C#12 4 State.reset = (State.reset, .data 0x47463801#32)

/-- R96, R97: the hardware reset and the soft reset have the same effect, in one step, whatever is running: every field of the core has
its reset value, and only the events still to come and the bus answer are left. -/
def Obligations.BothResetsGiveTheResetState : Prop :=
  ∀ s : State, ResetNext s →
    ∃ t, step s = .next t ∧ { t with inputs := [], response := none } = State.reset ∧ t.inputs = s.inputs.tail ∧
      irq t = false

/-- The invariant holds at reset. -/
def Obligations.CoreInvAtReset : Prop := CoreInv State.reset

/-- Every step from a state that meets the invariant gives a state that meets it. -/
def Obligations.StepKeepsCoreInv : Prop := ∀ s t : State, CoreInv s → step s = .next t → CoreInv t

/-- Log entry 15 (DEDUCED, unsafe): nothing stops the machine: every state has a next state, whatever the host, the entropy port or a
command does. This is the model's deduction and no rule of the spec: R32, R54, R83 and R86 each say it of one kind of event. -/
def Obligations.EveryStepGoesOn : Prop := ∀ s : State, GoesOn s

/-- R14: an operand register changes only by the commands and the host accesses the rule lists: as the destination of a command that
succeeds, by a WIPE with mask bit 3, by a host write while idle, or by reset. -/
def Obligations.RegistersChangeOnlyByRule : Prop :=
  ∀ (s t : State) (r : Reg), step s = .next t → readG t r ≠ readG s r →
    (∃ i, SequencerRunsCommand s i ∧ destination i = some r ∧ t.err = 0#8) ∨
    (∃ mask : WipeMask, SequencerRunsCommand s (.wipe mask) ∧ mask.getLsbD 3 = true) ∨
    (s.busy = false ∧ ∃ v, HostWrites s (.g r) v ∧ readG t r = v.extractLsb' 0 8) ∨
    ResetNext s

/-- R35: a bank element changes only by the commands the rule's table lists, by a host write of that element while idle, or by
reset; PICK never touches X[255]. -/
def Obligations.BankElementsChangeOnlyByRule : Prop :=
  ∀ (s t : State) (i : Fin 256), banksWf s = true → step s = .next t →
    (t.C.read i.val ≠ s.C.read i.val →
      (∃ mask : WipeMask, SequencerRunsCommand s (.wipe mask) ∧ mask.getLsbD 0 = true) ∨
      (s.busy = false ∧ ∃ v, HostWrites s (.c i) v) ∨ ResetNext s) ∧
    (t.X.read i.val ≠ s.X.read i.val →
      (∃ rs1, SequencerRunsCommand s (.pick rs1) ∧ i.val < 255) ∨
      (∃ mask : WipeMask, SequencerRunsCommand s (.wipe mask) ∧ mask.getLsbD 1 = true) ∨
      (s.busy = false ∧ ∃ v, HostWrites s (.x i) v) ∨ ResetNext s) ∧
    (t.Y.read i.val ≠ s.Y.read i.val →
      (∃ mask : WipeMask, SequencerRunsCommand s (.wipe mask) ∧ mask.getLsbD 2 = true) ∨
      (s.busy = false ∧ ∃ v, HostWrites s (.y i) v) ∨ ResetNext s)

/-- R35, R69, R71: EVAL reads only its registers and C[0..k-1], INTERP only its registers, X[0..k-1] and Y[0..k-1]: two states that agree
there give the same result and the same code. -/
def Obligations.PolynomialCommandsReadOnlyTheirElements : Prop :=
  (∀ (rd rs1 rs2 : Reg) (s s' t t' : State), SameRegs s s' →
    (∀ a, a < countOf s rs2 → s'.C.read a = s.C.read a) →
    exec (.eval rd rs1 rs2) s = .next t → exec (.eval rd rs1 rs2) s' = .next t' →
    readG t' rd = readG t rd ∧ t'.err = t.err) ∧
  (∀ (rd rs1 rs2 rs3 : Reg) (s s' t t' : State), SameRegs s s' →
    (∀ a, a < countOf s rs2 → s'.X.read a = s.X.read a ∧ s'.Y.read a = s.Y.read a) →
    exec (.interp rd rs1 rs2 rs3) s = .next t → exec (.interp rd rs1 rs2 rs3) s' = .next t' →
    readG t' rd = readG t rd ∧ t'.err = t.err)

/-- R39, R42: while a command runs, nothing the host does or sees depends on operand storage or on the entropy answers: two running states
that agree on everything else take every event but the sequencer's turn to states that agree again, bus answer included. -/
def Obligations.RunningCommandHidesStorage : Prop :=
  ∀ s s' t t' : State, SameControl s s' → s.busy = true → s.inputs ≠ [] → s.inputs.head? ≠ some .sequencer →
    step s = .next t → step s' = .next t' → SameControl t t'

/-- R92: an entropy answer is taken only by a PICK whose request is in progress (how it is held is the model's, log entry 3). A request is
never in progress while idle or while another command runs. That any answer with no request in progress is discarded and changes
nothing is the model's deduction (log entry 4, DEDUCED): R97 says it only of the answer to a request that a reset abandoned. -/
def Obligations.EntropyAnswersOnlyToARequest : Prop :=
  ∀ (s : State) (d : Draw) (rest : List Input), s.inputs = .entropy d :: rest →
    (requestPending s = true → step s = .next { s with draws := s.draws ++ [d], inputs := rest }) ∧
    (requestPending s = false → step s = .next { s with inputs := rest }) ∧
    (requestPending s = true ↔ s.busy = true ∧ ∃ i, decode s.cmd = some i ∧ awaitsEntropy i s)

/-! ### Assembly text and the platform -/

/-- R58: each pseudo-instruction has the effect of its name through its expansion. -/
def Obligations.PseudoInstructionEffects : Prop :=
  (∀ (rd : Reg) (s : State), ∃ t, exec (Pseudo.clr rd).expand s = .next t ∧ CompletedWith none s t ∧
    WritesOnly rd 0#8 s t) ∧
  (∀ (rd rs1 : Reg) (s : State), ∃ t, exec (Pseudo.sqr rd rs1).expand s = .next t ∧ CompletedWith none s t ∧
    WritesOnly rd (gfmul (readG s rs1) (readG s rs1)) s t) ∧
  (∀ s : State, ∃ t, exec Pseudo.wipeAll.expand s = .next t ∧ CompletedWith none s t ∧
    (∀ r : Reg, readG t r = 0#8) ∧ ∀ a : Nat, t.C.read a = 0#8 ∧ t.X.read a = 0#8 ∧ t.Y.read a = 0#8)

/-- R31: wherever the platform places the window, the host address base + off reaches the core as offset off, and an address outside the
window does not reach it. -/
def Obligations.WindowBaseIsFree : Prop :=
  ∀ (p : Platform) (off : Offset) (addr width : Nat) (v : Word) (s : State),
    platformRead p (p.windowBase + off.toNat) width s = respond (memRead off width s) ∧
    platformWrite p (p.windowBase + off.toNat) width v s = respond (memWrite off width v s) ∧
    (addr < p.windowBase ∨ p.windowBase + 4096 ≤ addr →
      platformRead p addr width s = s ∧ platformWrite p addr width v s = s)
end

