-- ==== Sys2Proof/Laws/Decode.lean ====
section
/-! SUPPORT. Small laws of encoding and decoding. -/

namespace Sys2Proof

/-- Where the bits of a placed register index are. -/
theorem placeReg_bit (r : Reg) (p k : Nat) (hp : p ≤ 28) :
    (placeReg r p).getLsbD k = (decide (p ≤ k) && r.bits.getLsbD (k - p)) := by
  unfold placeReg Reg.bits
  by_cases h : p ≤ k
  · simp only [BitVec.getLsbD_shiftLeft, BitVec.getLsbD_ofNat, h, decide_true, Bool.true_and, Nat.not_lt.mpr h,
      decide_false, Bool.not_false]
    by_cases h4 : k - p < 4
    · simp [h4, show k < 32 by omega, show k - p < 32 by omega]
    · have hlt : r.val < 2 ^ (k - p) :=
        lt_of_lt_of_le r.isLt (by
          calc 16 = 2 ^ 4 := rfl
            _ ≤ 2 ^ (k - p) := Nat.pow_le_pow_right (by norm_num) (by omega))
      simp [Nat.testBit_lt_two_pow hlt]
  · simp [h, show k < p by omega]

@[simp] theorem placeReg_zero (p : Nat) : placeReg 0 p = 0#32 := by simp [placeReg]

@[simp] theorem bits_zero : Reg.bits 0 = 0#4 := rfl

@[simp] theorem regOf_bits (r : Reg) : regOf r.bits = r := by
  apply Fin.ext
  simp only [regOf, Reg.bits, BitVec.toNat_ofNat]
  exact Nat.mod_eq_of_lt r.isLt

@[simp] theorem bits_regOf (b : BitVec 4) : (regOf b).bits = b := by simp [regOf, Reg.bits]

/-- A mask is placed like a register index. -/
theorem placeMask (m : WipeMask) : m.zeroExtend 32 <<< 20 = placeReg (regOf m) 20 := by
  simp [placeReg, regOf, BitVec.zeroExtend]

/-- The fields of a word made of an opcode and four placed indices. -/
theorem wordFields_placed (op : BitVec 8) (rd rs1 rs2 rs3 : Reg) :
    wordFields ((op.zeroExtend 32 <<< 24) ||| placeReg rd 20 ||| placeReg rs1 16 ||| placeReg rs2 12 ||| placeReg rs3 8) =
      ⟨op, rd.bits, rs1.bits, rs2.bits, rs3.bits, 0#8⟩ := by
  have h20 : (20 : Nat) ≤ 28 := by norm_num
  have h16 : (16 : Nat) ≤ 28 := by norm_num
  have h12 : (12 : Nat) ≤ 28 := by norm_num
  have h8 : (8 : Nat) ≤ 28 := by norm_num
  simp only [wordFields, Fields.mk.injEq]
  refine ⟨?_, ?_, ?_, ?_, ?_, ?_⟩ <;>
  · apply BitVec.eq_of_getLsbD_eq
    intro k hk
    simp only [BitVec.getLsbD_extractLsb', BitVec.getLsbD_or, placeReg_bit _ _ _ h20, placeReg_bit _ _ _ h16,
      placeReg_bit _ _ _ h12, placeReg_bit _ _ _ h8]
    interval_cases k <;> simp [BitVec.getLsbD_of_ge]

/-- A decoded command's own fields are the fields it was read from, so no field is dropped or invented. -/
theorem fields_of_decodeFields {f : Fields} {i : Instr} (h : decodeFields f = some i) : i.fields = f := by
  obtain ⟨op, rd, rs1, rs2, rs3, rsv⟩ := f
  unfold decodeFields at h
  simp only at h
  by_cases hr : rsv = 0#8
  · subst hr
    simp only [ne_eq, not_true_eq_false, if_false] at h
    repeat' split at h
    all_goals first
      | (simp at h; done)
      | (simp only [Option.some.injEq] at h; subst h; simp_all [Instr.fields])
  · simp [hr] at h

end Sys2Proof
end

