-- ==== Sys2Proof/Laws/Gf.lean ====
section
/-! SUPPORT. Small laws of the field functions: what an answer of gfinv and gfdiv says (R61, R62). -/

namespace Sys2Proof.Machine

/-- What gfinv answers is an inverse. -/
theorem gfmul_of_gfinv {a b : Byte} (h : gfinv a = some b) : gfmul a b = 1#8 := by
  simpa using List.find?_some h

theorem mem_allBytes (a : Byte) : a ∈ allBytes :=
  List.mem_map.2 ⟨a.toNat, List.mem_range.2 a.isLt, by simp⟩

/-- gfinv answers whenever there is an inverse. -/
theorem gfinv_of_gfmul {a c : Byte} (h : gfmul a c = 1#8) : ∃ b, gfinv a = some b ∧ gfmul a b = 1#8 := by
  cases hg : gfinv a with
  | none => exact absurd (List.find?_eq_none.1 hg c (mem_allBytes c)) (by simp [h])
  | some b => exact ⟨b, rfl, gfmul_of_gfinv hg⟩

/-- What gfdiv answers is a product with an inverse of the divisor. -/
theorem gfdiv_eq_some {a b c : Byte} : gfdiv a b = some c ↔ ∃ i, gfinv b = some i ∧ c = gfmul a i := by
  unfold gfdiv
  cases gfinv b with
  | none => simp
  | some i => simp [eq_comm]

/-- A reduction step is linear over XOR. -/
theorem reduceBit_xor (p q : BitVec 16) (i : Nat) : reduceBit (p ^^^ q) i = reduceBit p i ^^^ reduceBit q i := by
  unfold reduceBit
  rw [BitVec.getLsbD_xor]
  cases p.getLsbD i <;> cases q.getLsbD i <;> simp
  · ac_rfl
  · ac_rfl
  · rw [show p ^^^ (reductionPoly <<< (i - 8)) ^^^ (q ^^^ (reductionPoly <<< (i - 8))) =
        p ^^^ q ^^^ ((reductionPoly <<< (i - 8)) ^^^ (reductionPoly <<< (i - 8))) by ac_rfl]
    simp

/-- Reduction modulo 0x11B is linear over XOR. -/
theorem gfreduce_xor (p q : BitVec 16) : gfreduce (p ^^^ q) = gfreduce p ^^^ gfreduce q := by
  simp only [gfreduce, List.foldl_cons, List.foldl_nil, reduceBit_xor]

@[simp] theorem gfpow_zero (x : Byte) : gfpow x 0 = 1#8 := rfl

theorem gfpow_succ (x : Byte) (n : Nat) : gfpow x (n + 1) = gfmul (gfpow x n) x := rfl

end Sys2Proof.Machine
end

