-- ==== Sys2Proof/Laws/Memory.lean ====
section
/-! SUPPORT. The laws of banks: read after write, and every operation keeps the canonical form. -/

namespace Sys2Proof.Machine

@[simp] theorem Memory.read_nil (i : Nat) : Memory.read [] i = 0#8 := rfl

theorem Memory.read_cons (j : Nat) (u : Byte) (m : Memory) (i : Nat) :
    Memory.read ((j, u) :: m) i = if i = j then u else Memory.read m i := rfl

/-- A form with every index at least `lo` holds 0x00 below `lo`. -/
theorem Memory.read_below {m : Memory} {lo i : Nat} (h : Memory.wfFrom lo m = true) (hi : i < lo) : m.read i = 0#8 := by
  induction m generalizing lo with
  | nil => rfl
  | cons c m ih =>
    obtain ⟨j, u⟩ := c
    simp only [Memory.wfFrom, Bool.and_eq_true, decide_eq_true_eq] at h
    rw [Memory.read_cons, if_neg (by omega)]
    exact ih h.2 (by omega)

/-- A form from `lo` is a form from any smaller bound. -/
theorem Memory.wfFrom_mono {m : Memory} {lo lo' : Nat} (h : Memory.wfFrom lo m = true) (hl : lo' ≤ lo) :
    Memory.wfFrom lo' m = true := by
  cases m with
  | nil => rfl
  | cons c m =>
    obtain ⟨j, u⟩ := c
    simp only [Memory.wfFrom, Bool.and_eq_true, decide_eq_true_eq] at h ⊢
    exact ⟨⟨⟨by omega, h.1.1.2⟩, h.1.2⟩, h.2⟩

/-- Read after write, on a canonical bank. -/
theorem Memory.read_write {m : Memory} {lo : Nat} (h : Memory.wfFrom lo m = true) (i : Nat) (v : Byte) (a : Nat) :
    (m.write i v).read a = if a = i then v else m.read a := by
  induction m generalizing lo with
  | nil =>
    by_cases hv : v = 0#8 <;> by_cases ha : a = i <;> simp [Memory.write, Memory.read, hv, ha]
  | cons c m ih =>
    obtain ⟨j, u⟩ := c
    have h' := h
    simp only [Memory.wfFrom, Bool.and_eq_true, decide_eq_true_eq] at h
    have hrest := ih h.2
    rw [Memory.write]
    by_cases hij : i < j
    · rw [if_pos hij]
      have hz : ∀ b, b < j → Memory.read ((j, u) :: m) b = 0#8 := fun b hb => by
        rw [Memory.read_cons, if_neg (by omega)]; exact Memory.read_below h.2 (by omega)
      by_cases hv : v = 0#8
      · rw [if_pos hv]
        by_cases ha : a = i
        · rw [if_pos ha, ha, hz i hij, hv]
        · rw [if_neg ha]
      · rw [if_neg hv, Memory.read_cons]
    · rw [if_neg hij]
      by_cases hej : i = j
      · rw [if_pos hej]
        by_cases hv : v = 0#8
        · rw [if_pos hv, Memory.read_cons, ← hej]
          by_cases ha : a = i
          · rw [if_pos ha, hv, ha]; exact Memory.read_below h.2 (by omega)
          · rw [if_neg ha, if_neg ha]
        · rw [if_neg hv, Memory.read_cons, Memory.read_cons, ← hej]
          by_cases ha : a = i <;> simp [ha]
      · rw [if_neg hej, Memory.read_cons, Memory.read_cons, hrest]
        by_cases haj : a = j
        · rw [if_pos haj, if_neg (by omega), if_pos haj]
        · rw [if_neg haj, if_neg haj]

/-- Writing keeps the canonical form. -/
theorem Memory.wfFrom_write {m : Memory} {lo : Nat} (h : Memory.wfFrom lo m = true) {i : Nat} (hlo : lo ≤ i) (hi : i < 256)
    (v : Byte) : Memory.wfFrom lo (m.write i v) = true := by
  induction m generalizing lo with
  | nil =>
    by_cases hv : v = 0#8 <;> simp [Memory.write, Memory.wfFrom, hv, hlo, hi]
  | cons c m ih =>
    obtain ⟨j, u⟩ := c
    have h' := h
    simp only [Memory.wfFrom, Bool.and_eq_true, decide_eq_true_eq] at h
    rw [Memory.write]
    by_cases hij : i < j
    · by_cases hv : v = 0#8
      · simpa [hij, hv] using h'
      · simp only [if_pos hij, if_neg hv, Memory.wfFrom, Bool.and_eq_true, decide_eq_true_eq]
        exact ⟨⟨⟨hlo, hi⟩, hv⟩, ⟨⟨by omega, h.1.1.2⟩, h.1.2⟩, h.2⟩
    · by_cases hej : i = j
      · by_cases hv : v = 0#8
        · simp only [if_neg hij, if_pos hej, if_pos hv]
          exact Memory.wfFrom_mono h.2 (by omega)
        · simp only [if_neg hij, if_pos hej, if_neg hv, Memory.wfFrom, Bool.and_eq_true, decide_eq_true_eq]
          exact ⟨⟨⟨hlo, hi⟩, hv⟩, hej ▸ h.2⟩
      · simp only [if_neg hij, if_neg hej, Memory.wfFrom, Bool.and_eq_true, decide_eq_true_eq]
        exact ⟨h.1, ih h.2 (by omega)⟩

theorem Memory.wf_nil : Memory.wf [] = true := rfl

theorem Memory.wf_write {m : Memory} (h : m.wf = true) {i : Nat} (hi : i < 256) (v : Byte) : (m.write i v).wf = true :=
  Memory.wfFrom_write h (Nat.zero_le i) hi v

theorem Memory.read_write_of_wf {m : Memory} (h : m.wf = true) (i : Nat) (v : Byte) (a : Nat) :
    (m.write i v).read a = if a = i then v else m.read a :=
  Memory.read_write h i v a

theorem Memory.fill_succ (m : Memory) (k : Nat) (f : Nat → Byte) :
    m.fill (k + 1) f = (m.fill k f).write k (f k) := by
  simp [Memory.fill, List.range_succ]

/-- `for t in 0..k-1` writes elements 0..k-1 and no other, and keeps the canonical form. -/
theorem Memory.fill_spec {m : Memory} (h : m.wf = true) {k : Nat} (hk : k ≤ 256) (f : Nat → Byte) :
    (m.fill k f).wf = true ∧ ∀ a, (m.fill k f).read a = if a < k then f a else m.read a := by
  induction k with
  | zero => exact ⟨by simpa [Memory.fill] using h, fun a => by simp [Memory.fill]⟩
  | succ k ih =>
    obtain ⟨hwf, hread⟩ := ih (by omega)
    rw [Memory.fill_succ]
    refine ⟨Memory.wf_write hwf (by omega) _, fun a => ?_⟩
    rw [Memory.read_write_of_wf hwf, hread]
    by_cases ha : a = k
    · simp [ha]
    · by_cases hl : a < k
      · simp [ha, hl, Nat.lt_succ_of_lt hl]
      · simp [ha, hl, show ¬ a < k + 1 by omega]

/-- A swap exchanges two elements, leaves the others, and keeps the canonical form. -/
theorem Memory.swap_spec {m : Memory} (h : m.wf = true) {i j : Nat} (hi : i < 256) (hj : j < 256) :
    (m.swap i j).wf = true ∧
      ∀ a, (m.swap i j).read a = if a = j then m.read i else if a = i then m.read j else m.read a := by
  have h1 := Memory.wf_write h hi (m.read j)
  refine ⟨Memory.wf_write h1 hj _, fun a => ?_⟩
  rw [Memory.swap, Memory.read_write_of_wf h1, Memory.read_write_of_wf h]

/-- Canonical banks with the same elements are the same data. -/
theorem Memory.ext_from {m m' : Memory} {lo lo' : Nat} (h : Memory.wfFrom lo m = true) (h' : Memory.wfFrom lo' m' = true)
    (hr : ∀ a, m.read a = m'.read a) : m = m' := by
  induction m generalizing m' lo lo' with
  | nil =>
    cases m' with
    | nil => rfl
    | cons c m' =>
      obtain ⟨j, u⟩ := c
      simp only [Memory.wfFrom, Bool.and_eq_true, decide_eq_true_eq] at h'
      have := hr j
      rw [Memory.read_cons, if_pos rfl] at this
      exact absurd this.symm h'.1.2
  | cons c m ih =>
    obtain ⟨j, u⟩ := c
    have hm := h
    simp only [Memory.wfFrom, Bool.and_eq_true, decide_eq_true_eq] at h
    cases m' with
    | nil =>
      have := hr j
      rw [Memory.read_cons, if_pos rfl] at this
      exact absurd this h.1.2
    | cons c' m' =>
      obtain ⟨j', u'⟩ := c'
      have hm' := h'
      simp only [Memory.wfFrom, Bool.and_eq_true, decide_eq_true_eq] at h'
      have hj : j = j' := by
        by_contra hne
        rcases Nat.lt_or_gt_of_ne hne with hlt | hgt
        · have := hr j
          rw [Memory.read_cons, if_pos rfl, Memory.read_cons, if_neg (by omega),
            Memory.read_below h'.2 (by omega)] at this
          exact h.1.2 this
        · have := hr j'
          rw [Memory.read_cons, if_neg (by omega), Memory.read_below h.2 (by omega), Memory.read_cons, if_pos rfl] at this
          exact h'.1.2 this.symm
      subst hj
      have hu : u = u' := by simpa [Memory.read_cons] using hr j
      subst hu
      have hrest : ∀ a, Memory.read m a = Memory.read m' a := fun a => by
        by_cases ha : a = j
        · rw [ha, Memory.read_below h.2 (by omega), Memory.read_below h'.2 (by omega)]
        · simpa [Memory.read_cons, ha] using hr a
      rw [ih h.2 h'.2 hrest]

theorem Memory.ext_of_wf {m m' : Memory} (h : m.wf = true) (h' : m'.wf = true) (hr : ∀ a, m.read a = m'.read a) : m = m' :=
  Memory.ext_from h h' hr

end Sys2Proof.Machine
end

