-- ==== Sys2Proof/Laws/State.lean ====
section
/-! SUPPORT. What each update of State leaves in each field: one lemma per field per update, true by rfl, so that no later
proof unfolds a record update. -/

namespace Sys2Proof.Machine

variable (s : State) (r : Reg) (b : Byte) (v : Word) (e : Option ErrorKind) (p : State × Response)

/-! ### writeG -/

@[simp] theorem writeG_G : (writeG s r b).G = s.G.set r.val b := rfl
@[simp] theorem writeG_C : (writeG s r b).C = s.C := rfl
@[simp] theorem writeG_X : (writeG s r b).X = s.X := rfl
@[simp] theorem writeG_Y : (writeG s r b).Y = s.Y := rfl
@[simp] theorem writeG_cmd : (writeG s r b).cmd = s.cmd := rfl
@[simp] theorem writeG_busy : (writeG s r b).busy = s.busy := rfl
@[simp] theorem writeG_done : (writeG s r b).done = s.done := rfl
@[simp] theorem writeG_ovr : (writeG s r b).ovr = s.ovr := rfl
@[simp] theorem writeG_haz : (writeG s r b).haz = s.haz := rfl
@[simp] theorem writeG_err : (writeG s r b).err = s.err := rfl
@[simp] theorem writeG_ie : (writeG s r b).ie = s.ie := rfl
@[simp] theorem writeG_draws : (writeG s r b).draws = s.draws := rfl
@[simp] theorem writeG_inputs : (writeG s r b).inputs = s.inputs := rfl
@[simp] theorem writeG_response : (writeG s r b).response = s.response := rfl

/-! ### complete -/

@[simp] theorem complete_G : (complete s e).G = s.G := rfl
@[simp] theorem complete_C : (complete s e).C = s.C := rfl
@[simp] theorem complete_X : (complete s e).X = s.X := rfl
@[simp] theorem complete_Y : (complete s e).Y = s.Y := rfl
@[simp] theorem complete_cmd : (complete s e).cmd = s.cmd := rfl
@[simp] theorem complete_busy : (complete s e).busy = false := rfl
@[simp] theorem complete_done : (complete s e).done = true := rfl
@[simp] theorem complete_ovr : (complete s e).ovr = s.ovr := rfl
@[simp] theorem complete_haz : (complete s e).haz = s.haz := rfl
@[simp] theorem complete_err : (complete s e).err = outcomeCode e := rfl
@[simp] theorem complete_ie : (complete s e).ie = s.ie := rfl
@[simp] theorem complete_draws : (complete s e).draws = [] := rfl
@[simp] theorem complete_inputs : (complete s e).inputs = s.inputs := rfl
@[simp] theorem complete_response : (complete s e).response = s.response := rfl

/-! ### accept -/

@[simp] theorem accept_G : (accept v s).G = s.G := rfl
@[simp] theorem accept_C : (accept v s).C = s.C := rfl
@[simp] theorem accept_X : (accept v s).X = s.X := rfl
@[simp] theorem accept_Y : (accept v s).Y = s.Y := rfl
@[simp] theorem accept_cmd : (accept v s).cmd = v := rfl
@[simp] theorem accept_busy : (accept v s).busy = true := rfl
@[simp] theorem accept_done : (accept v s).done = false := rfl
@[simp] theorem accept_ovr : (accept v s).ovr = s.ovr := rfl
@[simp] theorem accept_haz : (accept v s).haz = s.haz := rfl
@[simp] theorem accept_err : (accept v s).err = 0#8 := rfl
@[simp] theorem accept_ie : (accept v s).ie = s.ie := rfl
@[simp] theorem accept_draws : (accept v s).draws = s.draws := rfl
@[simp] theorem accept_inputs : (accept v s).inputs = s.inputs := rfl
@[simp] theorem accept_response : (accept v s).response = s.response := rfl

/-! ### resetCore -/

@[simp] theorem resetCore_G : (resetCore s).G = Vector.replicate 16 0#8 := rfl
@[simp] theorem resetCore_C : (resetCore s).C = [] := rfl
@[simp] theorem resetCore_X : (resetCore s).X = [] := rfl
@[simp] theorem resetCore_Y : (resetCore s).Y = [] := rfl
@[simp] theorem resetCore_cmd : (resetCore s).cmd = 0#32 := rfl
@[simp] theorem resetCore_busy : (resetCore s).busy = false := rfl
@[simp] theorem resetCore_done : (resetCore s).done = false := rfl
@[simp] theorem resetCore_ovr : (resetCore s).ovr = false := rfl
@[simp] theorem resetCore_haz : (resetCore s).haz = false := rfl
@[simp] theorem resetCore_err : (resetCore s).err = 0#8 := rfl
@[simp] theorem resetCore_ie : (resetCore s).ie = false := rfl
@[simp] theorem resetCore_draws : (resetCore s).draws = [] := rfl
@[simp] theorem resetCore_inputs : (resetCore s).inputs = s.inputs := rfl
@[simp] theorem resetCore_response : (resetCore s).response = s.response := rfl

/-! ### statusWrite -/

@[simp] theorem statusWrite_G : (statusWrite v s).G = s.G := rfl
@[simp] theorem statusWrite_C : (statusWrite v s).C = s.C := rfl
@[simp] theorem statusWrite_X : (statusWrite v s).X = s.X := rfl
@[simp] theorem statusWrite_Y : (statusWrite v s).Y = s.Y := rfl
@[simp] theorem statusWrite_cmd : (statusWrite v s).cmd = s.cmd := rfl
@[simp] theorem statusWrite_busy : (statusWrite v s).busy = s.busy := rfl
@[simp] theorem statusWrite_done : (statusWrite v s).done = (s.done && !v.getLsbD 1) := rfl
@[simp] theorem statusWrite_ovr : (statusWrite v s).ovr = (s.ovr && !v.getLsbD 2) := rfl
@[simp] theorem statusWrite_haz : (statusWrite v s).haz = (s.haz && !v.getLsbD 3) := rfl
@[simp] theorem statusWrite_err : (statusWrite v s).err = s.err := rfl
@[simp] theorem statusWrite_ie : (statusWrite v s).ie = s.ie := rfl
@[simp] theorem statusWrite_draws : (statusWrite v s).draws = s.draws := rfl
@[simp] theorem statusWrite_inputs : (statusWrite v s).inputs = s.inputs := rfl
@[simp] theorem statusWrite_response : (statusWrite v s).response = s.response := rfl

/-! ### respond -/

@[simp] theorem respond_G : (respond p).G = p.1.G := rfl
@[simp] theorem respond_C : (respond p).C = p.1.C := rfl
@[simp] theorem respond_X : (respond p).X = p.1.X := rfl
@[simp] theorem respond_Y : (respond p).Y = p.1.Y := rfl
@[simp] theorem respond_cmd : (respond p).cmd = p.1.cmd := rfl
@[simp] theorem respond_busy : (respond p).busy = p.1.busy := rfl
@[simp] theorem respond_done : (respond p).done = p.1.done := rfl
@[simp] theorem respond_ovr : (respond p).ovr = p.1.ovr := rfl
@[simp] theorem respond_haz : (respond p).haz = p.1.haz := rfl
@[simp] theorem respond_err : (respond p).err = p.1.err := rfl
@[simp] theorem respond_ie : (respond p).ie = p.1.ie := rfl
@[simp] theorem respond_draws : (respond p).draws = p.1.draws := rfl
@[simp] theorem respond_inputs : (respond p).inputs = p.1.inputs := rfl
@[simp] theorem respond_response : (respond p).response = some p.2 := rfl

end Sys2Proof.Machine
end

