-- ==== Sys2Proof/Laws/Ops.lean ====
section
/-! SUPPORT. One lemma for each shared operation: what it answers, what it writes and what it leaves. Proofs cite these and do
not unfold the operations. -/

namespace Sys2Proof.Machine

/-! ### Registers -/

/-- Read after write of an operand register. -/
theorem readG_writeG (s : State) (rd r : Reg) (v : Byte) : readG (writeG s rd v) r = if r = rd then v else readG s r := by
  unfold readG writeG
  simp only [Vector.getElem_set]
  by_cases h : rd.val = r.val
  · rw [if_pos h, if_pos (Fin.ext h).symm]
  · rw [if_neg h, if_neg (fun e => h (congrArg Fin.val e).symm)]

@[simp] theorem readG_complete (s : State) (e : Option ErrorKind) (r : Reg) : readG (complete s e) r = readG s r := rfl

@[simp] theorem readG_accept (s : State) (v : Word) (r : Reg) : readG (accept v s) r = readG s r := rfl

@[simp] theorem readG_respond (p : State × Response) (r : Reg) : readG (respond p) r = readG p.1 r := rfl

@[simp] theorem readG_statusWrite (s : State) (v : Word) (r : Reg) : readG (statusWrite v s) r = readG s r := rfl

@[simp] theorem readG_resetCore (s : State) (r : Reg) : readG (resetCore s) r = 0#8 := by simp [readG]

@[simp] theorem readG_reset (r : Reg) : readG State.reset r = 0#8 := by simp [readG, State.reset]

theorem countOf_eq (s : State) (r : Reg) : countOf s r = (readG s r).toNat := rfl

theorem countOf_lt (s : State) (r : Reg) : countOf s r < 256 := (readG s r).isLt

theorem countOf_eq_zero_iff (s : State) (r : Reg) : countOf s r = 0 ↔ readG s r = 0#8 := by
  rw [countOf_eq]
  exact ⟨fun h => BitVec.eq_of_toNat_eq (by simpa using h), fun h => by simp [h]⟩

theorem SameBanks.refl (s : State) : SameBanks s s := fun _ => ⟨rfl, rfl, rfl⟩

theorem WritesNothing.refl (s : State) : WritesNothing s s := ⟨fun _ => rfl, SameBanks.refl s⟩

theorem SameRest.refl (s : State) : SameRest s s := ⟨rfl, rfl, rfl, rfl, rfl, rfl⟩

/-! ### Completion -/

/-- The shared completion is the completion of R83. -/
theorem complete_completedWith {s w : State} (e : Option ErrorKind) (h : SameRest s w) : CompletedWith e s (complete w e) :=
  ⟨rfl, rfl, rfl, rfl, h⟩

/-- `raise`: a completion with the kind's code that writes nothing. -/
theorem raise_spec (e : ErrorKind) (s : State) :
    ∃ t, raise e s = .next t ∧ CompletedWith (some e) s t ∧ WritesNothing s t :=
  ⟨_, rfl, complete_completedWith _ (SameRest.refl s), WritesNothing.refl s⟩

/-- `succeed`: a completion with the code 0x00. -/
theorem succeed_spec {s w : State} (h : SameRest s w) :
    ∃ t, succeed w = .next t ∧ CompletedWith none s t ∧ WritesNothing w t :=
  ⟨_, rfl, complete_completedWith _ h, WritesNothing.refl w⟩

/-- `succeedWith`: a completion with the code 0x00 that writes the destination register and nothing else. -/
theorem succeedWith_spec (rd : Reg) (v : Byte) (s : State) :
    ∃ t, succeedWith rd v s = .next t ∧ CompletedWith none s t ∧ WritesOnly rd v s t := by
  refine ⟨_, rfl, complete_completedWith _ (SameRest.refl s), ?_, fun r hr => ?_, SameBanks.refl s⟩
  · rw [readG_complete, readG_writeG, if_pos rfl]
  · rw [readG_complete, readG_writeG, if_neg hr]

/-! ### What a command can do -/

/-- `w` differs from `s` in operand storage only. -/
def StorageOf (s w : State) : Prop := w = { s with G := w.G, C := w.C, X := w.X, Y := w.Y }

theorem StorageOf.withX (s : State) (x : Memory) : StorageOf s { s with X := x } := rfl

theorem StorageOf.sameRest {s w : State} (h : StorageOf s w) : SameRest s w := by
  rw [h]; exact ⟨rfl, rfl, rfl, rfl, rfl, rfl⟩

/-- A command that succeeds with a destination, or raises: its two ends. -/
theorem succeedOrDivideByZero_cases (rd : Reg) (v : Option Byte) (s : State) :
    (v = none ∧ succeedOrDivideByZero rd v s = .next (complete s (some .divideByZero))) ∨
      ∃ q, v = some q ∧ succeedOrDivideByZero rd v s = .next (complete (writeG s rd q) none) := by
  cases v with
  | none => exact .inl ⟨rfl, rfl⟩
  | some q => exact .inr ⟨q, rfl, rfl⟩

/-- Every command either waits for the entropy port, changing nothing, or completes over the storage its rule has written. -/
theorem exec_cases (i : Instr) (s : State) :
    (exec i s = .next s ∧ awaitsEntropy i s) ∨
      ∃ w e, exec i s = .next (complete w e) ∧ StorageOf s w := by
  have quotient : ∀ (rd : Reg) (v : Option Byte),
      ∃ w e, succeedOrDivideByZero rd v s = .next (complete w e) ∧ StorageOf s w := fun rd v => by
    rcases succeedOrDivideByZero_cases rd v s with ⟨-, h⟩ | ⟨q, -, h⟩
    · exact ⟨_, _, h, rfl⟩
    · exact ⟨_, _, h, rfl⟩
  cases i with
  | nop => exact .inr ⟨s, none, rfl, rfl⟩
  | add rd rs1 rs2 => exact .inr ⟨writeG s rd (gfadd (readG s rs1) (readG s rs2)), none, rfl, rfl⟩
  | mul rd rs1 rs2 => exact .inr ⟨writeG s rd (gfmul (readG s rs1) (readG s rs2)), none, rfl, rfl⟩
  | inv rd rs1 =>
    refine .inr ?_
    simp only [exec, execInv]
    split
    · exact ⟨_, _, rfl, rfl⟩
    · exact quotient _ _
  | div rd rs1 rs2 =>
    refine .inr ?_
    simp only [exec, execDiv]
    split
    · exact ⟨_, _, rfl, rfl⟩
    · exact quotient _ _
  | eval rd rs1 rs2 =>
    refine .inr ?_
    simp only [exec, execEval]
    split
    · exact ⟨_, _, rfl, rfl⟩
    · exact ⟨_, _, rfl, rfl⟩
  | interp rd rs1 rs2 rs3 =>
    refine .inr ?_
    simp only [exec, execInterp]
    split
    · exact ⟨_, _, rfl, rfl⟩
    · split
      · exact ⟨_, _, rfl, rfl⟩
      · split
        · exact ⟨_, _, rfl, rfl⟩
        · exact quotient _ _
  | pick rs1 =>
    simp only [exec, execPick]
    split
    · exact .inr ⟨_, _, rfl, rfl⟩
    · rename_i hn
      split
      · rename_i x _ _
        exact .inr ⟨{ s with X := x }, none, rfl, rfl⟩
      · exact .inr ⟨{ s with X := clearedCoordinates s.X }, some .randomnessFailure, rfl, StorageOf.withX s _⟩
      · rename_i hw
        exact .inl ⟨rfl, rs1, rfl, hn, hw⟩
  | wipe mask => exact .inr ⟨_, _, rfl, rfl⟩

/-- The sequencer's turn while a command runs: the command waits, or it completes. -/
theorem sequencerTurn_cases (s : State) (hb : s.busy = true) :
    (sequencerTurn s = .next s ∧ ∃ i, decode s.cmd = some i ∧ awaitsEntropy i s) ∨
      ∃ w e, sequencerTurn s = .next (complete w e) ∧ StorageOf s w := by
  simp only [sequencerTurn, hb, if_true]
  cases h : decode s.cmd with
  | none => exact .inr ⟨_, _, rfl, rfl⟩
  | some i =>
    rcases exec_cases i s with ⟨he, ha⟩ | hc
    · exact .inl ⟨he, i, rfl, ha⟩
    · exact .inr hc

/-- The sequencer's turn while idle changes nothing. -/
theorem sequencerTurn_idle (s : State) (hb : s.busy = false) : sequencerTurn s = .next s := by simp [sequencerTurn, hb]

/-! ### A step -/

/-- With no event left the sequencer takes its turn. -/
theorem step_nil {s : State} (h : s.inputs = []) : step s = sequencerTurn s := by simp [step, h]

/-- Otherwise the next event happens. -/
theorem step_cons {s : State} {e : Input} {rest : List Input} (h : s.inputs = e :: rest) :
    step s = event e { s with inputs := rest } := by simp [step, h]

/-! ### Host accesses -/

theorem memRead_illegal {off : Offset} {width : Nat} (h : place off width = none) (s : State) :
    memRead off width s = (s, .busError) := by simp [memRead, h]

theorem memWrite_illegal {off : Offset} {width : Nat} (h : place off width = none) (v : Word) (s : State) :
    memWrite off width v s = (s, .busError) := by simp [memWrite, h]

/-- A legal read of operand storage. -/
theorem memRead_storage {off : Offset} {width : Nat} {p : Place} (h : place off width = some p) (hp : p.isStorage = true)
    (s : State) : memRead off width s = storageRead (storedAt s p) s := by
  cases p <;> simp [Place.isStorage] at hp <;> simp [memRead, h, storedAt]

/-- A legal write of operand storage. -/
theorem memWrite_storage {off : Offset} {width : Nat} {p : Place} (h : place off width = some p) (hp : p.isStorage = true)
    (v : Word) (s : State) : memWrite off width v s = (storageWrite p v s, .ack) := by
  cases p <;> simp [Place.isStorage] at hp <;> simp [memWrite, h]

/-- A legal read changes at most HAZ. -/
theorem memRead_state (off : Offset) (width : Nat) (s : State) :
    (memRead off width s).1 = s ∨ (s.busy = true ∧ (memRead off width s).1 = { s with haz := true }) := by
  have hs : ∀ b, (storageRead b s).1 = s ∨ (s.busy = true ∧ (storageRead b s).1 = { s with haz := true }) := fun b => by
    unfold storageRead
    by_cases hb : s.busy = true
    · exact .inr ⟨hb, by simp [hb]⟩
    · exact .inl (by simp [hb])
  unfold memRead
  split
  · exact .inl rfl
  · exact .inl rfl
  · exact .inl rfl
  · exact .inl rfl
  · exact .inl rfl
  · exact hs _
  · exact hs _
  · exact hs _
  · exact hs _

/-- Writing an element: the place holds the low byte, and every other place what it held. -/
theorem storedAt_storeAt {s : State} (hw : banksWf s = true) {p q : Place} (hp : p.isStorage = true)
    (hq : q.isStorage = true) (v : Word) :
    storedAt (storeAt p v s) q = if q = p then v.extractLsb' 0 8 else storedAt s q := by
  simp only [banksWf, Bool.and_eq_true] at hw
  obtain ⟨⟨hC, hX⟩, hY⟩ := hw
  cases p <;> simp [Place.isStorage] at hp <;> cases q <;> simp [Place.isStorage] at hq <;>
    simp [storeAt, storedAt, readG_writeG, Memory.read_write_of_wf hC, Memory.read_write_of_wf hX,
      Memory.read_write_of_wf hY, Fin.val_inj]
  all_goals rfl

end Sys2Proof.Machine
end

