-- ==== Sys2Proof/Laws/Shuffle.lean ====
section
/-! SUPPORT. What the shuffle of PICK can do, said once for an induction over its draws. -/

namespace Sys2Proof.Machine

theorem candidates_pos {n i : Nat} (hn : n ≤ 255) (hi : i < n) : 0 < candidates i := by unfold candidates; omega

/-- A swap index stays inside positions i..254 (R74). -/
theorem swapIndex_lt {n i : Nat} (hn : n ≤ 255) (hi : i < n) (r : Nat) : i + r % candidates i < 255 := by
  have := Nat.mod_lt r (candidates_pos hn hi)
  unfold candidates at *
  omega

/-- With every step made, the shuffle ends and uses no further answer. -/
theorem shuffle_end {n i : Nat} (h : n ≤ i) (ds : List Draw) (x : Memory) : shuffle n ds i x = .selected x ds := by
  cases ds with
  | nil => simp [shuffle, h]
  | cons d ds => simp [shuffle, h]

/-- A property that every swap inside positions 0..254 keeps holds of the selected bank (one induction for all of PICK's
invariants). -/
theorem shuffle_keeps {P : Memory → Prop} {n : Nat} (hn : n ≤ 255)
    (hswap : ∀ x i j, i < 255 → j < 255 → P x → P (x.swap i j)) :
    ∀ (ds : List Draw) (i : Nat) (x : Memory), P x → ∀ x' rest, shuffle n ds i x = .selected x' rest → P x' := by
  intro ds
  induction ds with
  | nil =>
    intro i x hx x' rest h
    by_cases hi : n ≤ i
    · rw [shuffle_end hi] at h; cases h; exact hx
    · simp [shuffle, hi] at h
  | cons d ds ih =>
    intro i x hx x' rest h
    by_cases hi : n ≤ i
    · rw [shuffle_end hi] at h; cases h; exact hx
    · cases d with
      | fail => simp [shuffle, hi] at h
      | byte r =>
        simp only [shuffle, hi, if_false] at h
        split at h
        · exact ih _ _ (hswap _ _ _ (by omega) (swapIndex_lt hn (by omega) _) hx) _ _ h
        · exact ih _ _ hx _ _ h

/-- One more answer to a waiting shuffle is consumed. -/
theorem shuffle_append {n : Nat} (d : Draw) :
    ∀ (ds : List Draw) (i : Nat) (x : Memory), shuffle n ds i x = .waiting →
      (shuffle n (ds ++ [d]) i x).leftover = [] := by
  intro ds
  induction ds with
  | nil =>
    intro i x h
    by_cases hi : n ≤ i
    · simp [shuffle, hi] at h
    · cases d with
      | fail => simp [shuffle, hi, PickResult.leftover]
      | byte r =>
        simp only [List.nil_append, shuffle, hi, if_false]
        repeat' split
        all_goals rfl
  | cons c ds ih =>
    intro i x h
    by_cases hi : n ≤ i
    · rw [shuffle_end hi] at h; cases h
    · cases c with
      | fail => simp [shuffle, hi] at h
      | byte r =>
        simp only [List.cons_append, shuffle, hi, if_false] at h ⊢
        split at h
        · rename_i hr; simp only [hr, if_true]; exact ih _ _ h
        · rename_i hr; simp only [hr, if_false]; exact ih _ _ h

/-- The ordered coordinates (R74). -/
theorem orderedCoordinates_spec {x : Memory} (h : x.wf = true) :
    (orderedCoordinates x).wf = true ∧
      ∀ a, (orderedCoordinates x).read a = if a < 255 then BitVec.ofNat 8 (a + 1) else x.read a :=
  Memory.fill_spec h (by omega) _

/-- The cleared coordinates (R74, R84). -/
theorem clearedCoordinates_spec {x : Memory} (h : x.wf = true) :
    (clearedCoordinates x).wf = true ∧ ∀ a, (clearedCoordinates x).read a = if a < 255 then 0#8 else x.read a :=
  Memory.fill_spec h (by omega) _

/-- The bank a PICK selects is canonical and keeps X[255] (R74). -/
theorem pickResult_selected {s : State} {rs1 : Reg} {x : Memory} {rest : List Draw} (hw : s.X.wf = true)
    (h : pickResult s rs1 = .selected x rest) : x.wf = true ∧ ∀ a, 255 ≤ a → x.read a = s.X.read a := by
  obtain ⟨ho, hr⟩ := orderedCoordinates_spec hw
  refine shuffle_keeps (P := fun y => y.wf = true ∧ ∀ a, 255 ≤ a → y.read a = s.X.read a) (n := countOf s rs1)
    (by have := (readG s rs1).isLt; unfold countOf; omega) ?_ s.draws 0 _ ⟨ho, fun a ha => ?_⟩ x rest h
  · intro y i j hi hj hy
    obtain ⟨h1, h2⟩ := Memory.swap_spec hy.1 (show i < 256 by omega) (show j < 256 by omega)
    refine ⟨h1, fun a ha => ?_⟩
    rw [h2, if_neg (by omega), if_neg (by omega), hy.2 a ha]
  · rw [hr, if_neg (by omega)]

end Sys2Proof.Machine
end

