-- ==== Sys2Proof/Laws/Invariant.lean ====
section
/-! SUPPORT. Every operation keeps the banks canonical, and every code is one the core writes: the pieces of the core's
invariant that single operations keep. -/

namespace Sys2Proof.Machine

/-- R81: the codes of a completion are 0x00 to 0x06. -/
theorem outcomeCode_le (e : Option ErrorKind) : (outcomeCode e).toNat ≤ 6 := by
  cases e with
  | none => decide
  | some e => cases e <;> decide

theorem banksWf_reset : banksWf State.reset = true := rfl

theorem banksWf_resetCore (s : State) : banksWf (resetCore s) = true := rfl

/-- A host write of an element keeps the banks canonical. -/
theorem banksWf_storeAt {s : State} (h : banksWf s = true) (p : Place) (v : Word) : banksWf (storeAt p v s) = true := by
  simp only [banksWf, Bool.and_eq_true] at h
  cases p <;> simp [storeAt, banksWf, h, Memory.wf_write]

/-- Every command keeps the banks canonical. -/
theorem banksWf_exec {i : Instr} {s t : State} (hw : banksWf s = true) (h : exec i s = .next t) : banksWf t = true := by
  have hw' := hw
  simp only [banksWf, Bool.and_eq_true] at hw
  cases i with
  | pick rs1 =>
    simp only [exec, execPick] at h
    split at h
    · cases h; exact hw'
    · split at h
      · rename_i x rest hx
        cases h
        simp [banksWf, hw, (pickResult_selected hw.1.2 hx).1]
      · cases h
        simp [banksWf, hw, (clearedCoordinates_spec hw.1.2).1]
      · cases h; exact hw'
  | wipe mask =>
    cases h
    simp only [banksWf, complete_C, complete_X, complete_Y, wipeBank]
    cases maskC mask <;> cases maskX mask <;> cases maskY mask <;> simp [hw, Memory.wf_nil]
  | nop => cases h; exact hw'
  | add rd rs1 rs2 => cases h; exact hw'
  | mul rd rs1 rs2 => cases h; exact hw'
  | inv rd rs1 =>
    simp only [exec, execInv] at h
    split at h
    · cases h; exact hw'
    · rcases succeedOrDivideByZero_cases rd (gfinv (readG s rs1)) s with ⟨-, hq⟩ | ⟨q, -, hq⟩ <;>
      · rw [hq] at h; cases h; exact hw'
  | div rd rs1 rs2 =>
    simp only [exec, execDiv] at h
    split at h
    · cases h; exact hw'
    · rcases succeedOrDivideByZero_cases rd (gfdiv (readG s rs1) (readG s rs2)) s with ⟨-, hq⟩ | ⟨q, -, hq⟩ <;>
      · rw [hq] at h; cases h; exact hw'
  | eval rd rs1 rs2 =>
    simp only [exec, execEval] at h
    split at h <;>
    · cases h; exact hw'
  | interp rd rs1 rs2 rs3 =>
    simp only [exec, execInterp] at h
    split at h
    · cases h; exact hw'
    · split at h
      · cases h; exact hw'
      · split at h
        · cases h; exact hw'
        · rcases succeedOrDivideByZero_cases rd (interpolate s.X s.Y (countOf s rs2) (readG s rs1)) s with
            ⟨-, hq⟩ | ⟨q, -, hq⟩ <;>
          · rw [hq] at h; cases h; exact hw'

end Sys2Proof.Machine
end

