-- ==== Sys2Proof/Laws/PerInstr.lean ====
section
/-! SUPPORT. Statements made command by command: the word of a command has exactly the command's fields (R50, R52), and those
fields are well-formed (R54). -/

namespace Sys2Proof.Laws

/-- The fields of the word `encode` gives are the fields of the row of R52. -/
def EncodedFields.Statement (i : Instr) : Prop := wordFields (encode i) = i.fields

theorem EncodedFields.nop : EncodedFields.Statement .nop := rfl

theorem EncodedFields.add (rd rs1 rs2 : Reg) : EncodedFields.Statement (.add rd rs1 rs2) := by
  simpa [EncodedFields.Statement, encode, Instr.fields] using wordFields_placed 0x01#8 rd rs1 rs2 0

theorem EncodedFields.mul (rd rs1 rs2 : Reg) : EncodedFields.Statement (.mul rd rs1 rs2) := by
  simpa [EncodedFields.Statement, encode, Instr.fields] using wordFields_placed 0x02#8 rd rs1 rs2 0

theorem EncodedFields.inv (rd rs1 : Reg) : EncodedFields.Statement (.inv rd rs1) := by
  simpa [EncodedFields.Statement, encode, Instr.fields] using wordFields_placed 0x03#8 rd rs1 0 0

theorem EncodedFields.div (rd rs1 rs2 : Reg) : EncodedFields.Statement (.div rd rs1 rs2) := by
  simpa [EncodedFields.Statement, encode, Instr.fields] using wordFields_placed 0x04#8 rd rs1 rs2 0

theorem EncodedFields.eval (rd rs1 rs2 : Reg) : EncodedFields.Statement (.eval rd rs1 rs2) := by
  simpa [EncodedFields.Statement, encode, Instr.fields] using wordFields_placed 0x10#8 rd rs1 rs2 0

theorem EncodedFields.interp (rd rs1 rs2 rs3 : Reg) : EncodedFields.Statement (.interp rd rs1 rs2 rs3) := by
  simpa [EncodedFields.Statement, encode, Instr.fields] using wordFields_placed 0x11#8 rd rs1 rs2 rs3

theorem EncodedFields.pick (rs1 : Reg) : EncodedFields.Statement (.pick rs1) := by
  simpa [EncodedFields.Statement, encode, Instr.fields] using wordFields_placed 0x20#8 0 rs1 0 0

theorem EncodedFields.wipe (mask : WipeMask) : EncodedFields.Statement (.wipe mask) := by
  simpa [EncodedFields.Statement, encode, placeMask, Instr.fields] using wordFields_placed 0x30#8 (regOf mask) 0 0 0

/-- The command's field values pass every check of R54. -/
def WellFormedFields.Statement (i : Instr) : Prop := i.wellFormed = true

theorem WellFormedFields.nop : WellFormedFields.Statement .nop := rfl

theorem WellFormedFields.add (rd rs1 rs2 : Reg) : WellFormedFields.Statement (.add rd rs1 rs2) := rfl

theorem WellFormedFields.mul (rd rs1 rs2 : Reg) : WellFormedFields.Statement (.mul rd rs1 rs2) := rfl

theorem WellFormedFields.inv (rd rs1 : Reg) : WellFormedFields.Statement (.inv rd rs1) := rfl

theorem WellFormedFields.div (rd rs1 rs2 : Reg) : WellFormedFields.Statement (.div rd rs1 rs2) := rfl

theorem WellFormedFields.eval (rd rs1 rs2 : Reg) : WellFormedFields.Statement (.eval rd rs1 rs2) := rfl

theorem WellFormedFields.interp (rd rs1 rs2 rs3 : Reg) : WellFormedFields.Statement (.interp rd rs1 rs2 rs3) := rfl

theorem WellFormedFields.pick (rs1 : Reg) : WellFormedFields.Statement (.pick rs1) := rfl

theorem WellFormedFields.wipe (mask : WipeMask) : WellFormedFields.Statement (.wipe mask) := rfl

end Sys2Proof.Laws
end

