-- ==== Sys2Proof/Tests/Slice0.lean ====
section
/-! SUPPORT. Tests of the model, and a witness for the hypotheses of every statement. Expected values come from the spec: the
examples of the command rules, the vectors V-* and the scenarios E* of 95_test_vectors.md, and words written out from R57. -/

namespace Sys2Proof.Tests

open Sys2Proof.Machine

/-! ### Helpers -/

/-- The next state of an outcome. -/
def after (o : Host.Outcome State Fault Refusal) : State :=
  match o with
  | .next t => t
  | .fault _ => State.reset
  | .refused _ => State.reset

/-- The reset state with values in G1, G2 and G3. -/
def regs (a b c : Byte) : State := writeG (writeG (writeG State.reset 1 a) 2 b) 3 c

/-- One step that runs a command word in a state. -/
def ran (w : Nat) (s : State) : State := after (step (s.withFetchWord 32 w))

/-- Scenario B (E8): the coefficients and the points. -/
def scenarioB (s : State) : State :=
  { s with C := [(0, 0x2A), (1, 0x07), (2, 0x13)], X := [(0, 1), (1, 2), (2, 3)], Y := [(0, 0x3E), (1, 0x68), (2, 0x7C)] }

/-- One step that performs a host access. -/
def accessed (e : Input) (s : State) : State := after (step { s with inputs := [e] })

/-- G1 and a busy core running a PICK of G1 with some answers. -/
def picking (n : Byte) (ds : List Draw) : State := { accept 0x20010000#32 (regs n 0 0) with draws := ds }

/-! ### WellFormed smoke: one ill-formed term for each check -/

theorem test_ill_formed_op : (Fields.mk 0x05#8 0 0 0 0 0).opAssigned = false ∧ (Fields.mk 0x05#8 0 0 0 0 0).wellFormed = false := by
  decide

theorem test_ill_formed_rsv : (Fields.mk 0x01#8 3 1 2 0 0x80#8).rsvZero = false ∧
    (Fields.mk 0x01#8 3 1 2 0 0x80#8).wellFormed = false := by decide

theorem test_ill_formed_unused : (Fields.mk 0x20#8 1 1 0 0 0).unusedZero = false ∧
    (Fields.mk 0x20#8 1 1 0 0 0).wellFormed = false := by decide

theorem test_well_formed_interp : (Fields.mk 0x11#8 15 15 15 15 0).wellFormed = true := by decide

/-! ### Decoding: words written out bit by bit from R52, one for each constructor -/

theorem test_decode_nop : decode 0b00000000000000000000000000000000#32 = some .nop := by decide

theorem test_decode_add : decode 0b00000001001100010010000000000000#32 = some (.add 3 1 2) := by decide

theorem test_decode_mul : decode 0b00000010001100010010000000000000#32 = some (.mul 3 1 2) := by decide

theorem test_decode_inv : decode 0b00000011001000010000000000000000#32 = some (.inv 2 1) := by decide

theorem test_decode_div : decode 0b00000100001100010010000000000000#32 = some (.div 3 1 2) := by decide

theorem test_decode_eval : decode 0b00010000000000010010000000000000#32 = some (.eval 0 1 2) := by decide

theorem test_decode_interp : decode 0b00010001000000010010001100000000#32 = some (.interp 0 1 2 3) := by decide

theorem test_decode_pick : decode 0b00100000000000010000000000000000#32 = some (.pick 1) := by decide

theorem test_decode_wipe : decode 0b00110000100100000000000000000000#32 = some (.wipe 0b1001#4) := by decide

/-- The illegal words of V-DEC. -/
theorem test_decode_illegal :
    ([0x00000001#32, 0x00100000#32, 0x01312100#32, 0x01312080#32, 0x03211000#32, 0x05000000#32, 0x0F000000#32, 0x10FFF100#32,
      0x12000000#32, 0x20110000#32, 0x20011000#32, 0x30F10000#32, 0xFFFFFFFF#32].all fun w => decode w == none) = true := by
  decide

/-! ### Commands: the examples of the rules and vectors of V-* -/

theorem test_add : readG (ran 0x01312000 (regs 0x57 0x83 0)) 3 = 0xD4#8 := by decide +kernel

/-- V-ADD-4: the destination is also a source. -/
theorem test_add_rd_is_source : readG (ran 0x01112000 (regs 0xFF 0x0F 0)) 1 = 0xF0#8 := by decide +kernel

theorem test_mul : readG (ran 0x02312000 (regs 0x57 0x83 0)) 3 = 0xC1#8 := by decide +kernel

/-- V-MUL-3 and V-MUL-6: the largest products. -/
theorem test_mul_degree_14 : gfmul 0xFF#8 0xFF#8 = 0x13#8 ∧ gfmul 0x80#8 0x80#8 = 0x9A#8 := by decide +kernel

theorem test_inv : readG (ran 0x03210000 (regs 0x53 0 0)) 2 = 0xCA#8 := by decide +kernel

/-- V-INV: the operand 0x00 leaves G2 = 0x77 and gives ERR = 0x01. -/
theorem test_inv_zero : readG (ran 0x03210000 (regs 0 0x77 0)) 2 = 0x77#8 ∧
    statusWord (ran 0x03210000 (regs 0 0x77 0)) = 0x00000102#32 := by decide +kernel

theorem test_div : readG (ran 0x04312000 (regs 0xC1 0x83 0)) 3 = 0x57#8 := by decide +kernel

/-- V-DIV-10: 0 / 0 raises DivideByZero. -/
theorem test_div_zero : (ran 0x04312000 (regs 0 0 0x99)).err = 0x01#8 ∧ readG (ran 0x04312000 (regs 0 0 0x99)) 3 = 0x99#8 := by
  decide +kernel

/-- V-EVAL-3. -/
theorem test_eval : readG (ran 0x10012000 (scenarioB (regs 2 3 0))) 0 = 0x68#8 := by decide +kernel

/-- V-EVAL-10. -/
theorem test_eval_no_coefficients : (ran 0x10012000 (scenarioB (regs 2 0 0))).err = 0x04#8 := by decide +kernel

/-- E8: interpolation at 0 recovers the secret; E10: a basis product that starts at 0x00 would give 0x00. -/
theorem test_interp : readG (ran 0x11012300 (scenarioB (regs 0 3 3))) 0 = 0x2A#8 := by decide +kernel

/-- V-INTERP-19 and V-INTERP-20: lengths are checked before k = 0, and a repeated coordinate is reported. -/
theorem test_interp_errors : (ran 0x11012300 (scenarioB (regs 0 0 1))).err = 0x02#8 ∧
    (ran 0x11012300 { scenarioB (regs 0 3 3) with X := [(0, 1), (1, 2), (2, 1)] }).err = 0x03#8 := by decide +kernel

/-- V-PICK-1. -/
theorem test_pick :
    (let t := after (step (picking 3 [.byte 0x05, .byte 0xFF, .byte 0x00, .byte 0x10]))
     (t.X.read 0, t.X.read 1, t.X.read 2, t.X.read 5, t.X.read 18, t.X.read 255, t.err) =
      (0x06#8, 0x02#8, 0x13#8, 0x01#8, 0x03#8, 0x00#8, 0x00#8)) := by decide +kernel

/-- V-PICK-11: the second draw is FAIL. -/
theorem test_pick_fail :
    (let t := after (step { picking 3 [.byte 0x05, .fail] with X := [(0, 0xEE), (255, 0xEE)] })
     (t.X, statusWord t) = ([(255, 0xEE#8)], 0x00000502#32)) := by decide +kernel

/-- V-WIPE-3: C and G are zeroed, X and Y are not. -/
theorem test_wipe :
    (let t := ran 0x30900000 { regs 0x5A 0x5A 0x5A with C := [(255, 0x5A)], X := [(255, 0x5A)], Y := [(0, 0x5A)] }
     (t.C, t.X, t.Y, readG t 1, statusWord t) = ([], [(255, 0x5A#8)], [(0, 0x5A#8)], 0x00#8, 0x00000002#32)) := by
  decide +kernel

/-- V-NOP: nothing changes but STATUS. -/
theorem test_nop : ran 0x00000000 (regs 0x5A 0 0) = { regs 0x5A 0 0 with done := true } := by decide +kernel

/-- V-DEC: an illegal word. -/
theorem test_illegal : statusWord (ran 0x05000000 (regs 1 2 3)) = 0x00000602#32 ∧ readG (ran 0x05000000 (regs 1 2 3)) 3 = 3#8 := by
  decide +kernel

/-! ### Host accesses: V-HOST -/

theorem test_host_id : (accessed (.read 0x00C 4) State.reset).response = some (.data 0x47463801#32) := by decide

theorem test_host_element : readG (accessed (.write 0x040 4 0x12345678) State.reset) 0 = 0x78#8 := by decide +kernel

theorem test_host_bus_errors :
    ([Input.read 0x002 4, .read 0x040 2, .read 0x010 4, .write 0x080 4 1].all fun e =>
      accessed e State.reset == { State.reset with response := some .busError }) = true := by decide +kernel

/-- V-HOST-16 and 17: a CMD write while busy is dropped. -/
theorem test_host_dropped :
    (let t := accessed (.write 0x000 4 0x01312000) (accept 0 State.reset)
     (t.cmd, statusWord t) = (0x00000000#32, 0x00000005#32)) := by decide +kernel

/-- V-HOST-21: DONE and HAZ are cleared, BUSY and ERR are not writable. -/
theorem test_host_w1c :
    statusWord (accessed (.write 0x004 4 0xFFFFFFFF) { State.reset with done := true, haz := true, err := 5 }) = 0x00000500#32 := by
  decide +kernel

/-- V-HOST-22: bit 1 wins over bit 0. -/
theorem test_host_soft_reset :
    accessed (.write 0x008 4 0x00000003) { regs 1 2 3 with ie := true, busy := true } =
      { State.reset with response := some .ack } := by decide +kernel

/-- The abort of 95_test_vectors.md (V-HOST): a late entropy answer after a soft reset is discarded. -/
theorem test_late_answer : accessed (.entropy (.byte 7)) State.reset = State.reset := by decide +kernel

theorem test_entropy_taken : (accessed (.entropy (.byte 7)) (picking 3 [.byte 5])).draws = [.byte 5, .byte 7] := by decide +kernel

/-- Each clause of the window map at the ends of its range (R33). -/
theorem test_map_edges :
    place 0x00C 4 = some .id ∧ place 0x010 4 = none ∧ place 0x03C 4 = none ∧ place 0x040 4 = some (.g 0) ∧
    place 0x07C 4 = some (.g 15) ∧ place 0x080 4 = none ∧ place 0x3FC 4 = none ∧ place 0x400 4 = some (.c 0) ∧
    place 0x7FC 4 = some (.c 255) ∧ place 0x800 4 = some (.x 0) ∧ place 0xBFC 4 = some (.x 255) ∧
    place 0xC00 4 = some (.y 0) ∧ place 0xFFC 4 = some (.y 255) ∧ place 0x401 4 = none ∧ place 0x400 2 = none := by decide

theorem test_codes : ErrorKind.illegalCommand.code = 0x06#8 ∧ HostErrorKind.inconsistentShareLengths.code = 0x84#8 := by decide

/-! ### Assembly text: R57, R58 -/

theorem test_asm :
    assemble "add g3, g1, G2" = some (.add 3 1 2) ∧ assemble "interp g15,g15,g15,g15 ; k" = some (.interp 15 15 15 15) ∧
    assemble "wipe c|g" = some (.wipe 9#4) ∧ assemble "wipe 0xF" = some (.wipe 15#4) ∧ assemble "add g16, g1, g1" = none := by
  decide +kernel

theorem test_asm_pseudo :
    assemble "clr g7" = some (.add 7 7 7) ∧ assemble "sqr g3, g1" = some (.mul 3 1 1) ∧ assemble "wipe all" = some (.wipe 15#4) := by
  decide +kernel

theorem test_script_access :
    (ScriptForm.issue (.pick 1)).access = .write 0x000 4 0x20010000 ∧ (ScriptForm.setg 15 3).access = .write 0x07C 4 3 ∧
    (ScriptForm.gety 255).access = .read 0xFFC 4 ∧ pollAgain (.data 0x00000001) = some (.read 0x004 4) ∧
    pollAgain (.data 0x00000102) = none ∧ runContinues 0x00000002 = true ∧ runContinues 0x00000102 = false := by decide

/-! ### Witnesses: a state and operands that meet the hypotheses of each statement -/

/-- AddWritesXor, MulWritesProduct, WipeZeroesTheSelected, NopOnlyCompletes: each value premise of their clauses. -/
theorem witness_binary_clauses :
    readG (regs 0x57 0x83 0) 1 = 0x57#8 ∧ readG (regs 0x57 0x83 0) 2 = 0x83#8 ∧ readG (regs 0 0x83 0) 1 = 0#8 ∧
    readG (regs 0x57 0 0) 2 = 0#8 ∧ readG (regs 1 0xFF 0) 1 = 1#8 ∧ readG (regs 0xFF 1 0) 2 = 1#8 ∧
    readG (regs 0xFF 0xFF 0) 1 = 0xFF#8 ∧ readG (regs 0xFF 0xFF 0) 2 = 0xFF#8 := by decide

/-- InvWritesInverseOrDivideByZero: both clauses, and the values 1 and 0x53. -/
theorem witness_inv_clauses : readG (regs 0x53 0 0) 1 = 0x53#8 ∧ readG (regs 0x53 0 0) 1 ≠ 0#8 ∧ readG (regs 1 0 0) 1 = 1#8 ∧
    readG State.reset 1 = 0#8 := by decide

/-- DivWritesQuotientOrDivideByZero: both clauses, and their inner premises. -/
theorem witness_div_clauses : readG (regs 0xC1 0x83 0) 1 = 0xC1#8 ∧ readG (regs 0xC1 0x83 0) 2 = 0x83#8 ∧
    readG (regs 0 1 0) 1 = 0#8 ∧ readG (regs 0 1 0) 2 = 1#8 ∧ readG State.reset 2 = 0#8 := by decide

/-- EvalRunsHorner: k = 0, k = 1, x = 0, x = 1 and the example; EvalEqualsPolynomialSum. -/
theorem witness_eval_clauses : readG State.reset 2 = 0#8 ∧ readG (scenarioB (regs 0 1 0)) 2 = 1#8 ∧
    readG (scenarioB (regs 0 255 0)) 1 = 0#8 ∧ readG (scenarioB (regs 1 255 0)) 1 = 1#8 ∧
    readG (scenarioB (regs 2 3 0)) 2 = 3#8 ∧ (scenarioB (regs 2 3 0)).C.read 2 = 0x13#8 ∧
    1 ≤ countOf (scenarioB (regs 2 3 0)) 2 := by decide

/-- Distinct coordinates: scenario B's three. -/
theorem witness_distinct : Distinct (scenarioB (regs 0 3 3)).X (readG (scenarioB (regs 0 3 3)) 2).toNat := by
  intro i j hij hj
  have hj3 : j < 3 := hj
  interval_cases j <;> interval_cases i <;> decide

/-- A single point, and X[0] = X[1]. -/
theorem witness_not_distinct : ¬ Distinct [(0, 1#8), (1, 1#8)] 2 := fun h => h 0 1 (by decide) (by decide) rfl

/-- InterpChecksInOrder: a state for each of its clauses. -/
theorem witness_interp_checks :
    readG (regs 0 3 2) 2 ≠ readG (regs 0 3 2) 3 ∧ readG State.reset 2 = readG State.reset 3 ∧ readG State.reset 2 = 0#8 ∧
    readG (regs 0 2 2) 2 = readG (regs 0 2 2) 3 ∧ readG (regs 0 2 2) 2 ≠ 0#8 ∧
    ¬ Distinct ({ regs 0 2 2 with X := [(0, 1#8), (1, 1#8)] } : State).X (readG (regs 0 2 2) 2).toNat :=
  ⟨by decide, by decide, by decide, by decide, by decide, witness_not_distinct⟩

/-- InterpWritesLagrangeSum, and, with f the coefficients of scenario B, InterpRecoversPolynomial at z = 0. -/
theorem witness_interp_polynomial :
    let s := scenarioB (regs 0 3 3)
    readG s 2 = readG s 3 ∧ readG s 2 ≠ 0#8 ∧ Distinct s.X (readG s 2).toNat ∧ readG s 1 = 0#8 ∧
    ∀ i, i < (readG s 2).toNat → s.Y.read i = polySum s.C (readG s 2).toNat (s.X.read i) := by
  refine ⟨by decide, by decide, witness_distinct, by decide, fun i hi => ?_⟩
  have hi3 : i < 3 := hi
  interval_cases i <;> decide +kernel

/-- InterpReturnsSampleValues: z = X[2], the last point, and the one-point case. -/
theorem witness_interp_sample :
    readG (scenarioB (regs 3 3 3)) 1 = (scenarioB (regs 3 3 3)).X.read 2 ∧ 2 < (readG (scenarioB (regs 3 3 3)) 2).toNat ∧
    readG (scenarioB (regs 9 1 1)) 2 = 1#8 ∧ 0 < (readG (scenarioB (regs 9 1 1)) 2).toNat := by decide

/-- InterpIsOrderIndependent: the rotation of scenario B's points (V-INTERP-7). -/
theorem witness_interp_permutation :
    let s := scenarioB (regs 0 3 3)
    let p : Nat → Nat := fun i => (i + 2) % 3
    (∀ i, i < (readG s 2).toNat → p i < (readG s 2).toNat) ∧
    (∀ i j, i < (readG s 2).toNat → j < (readG s 2).toNat → p i = p j → i = j) ∧
    (∀ i, i < (readG s 2).toNat →
      Memory.read [(0, 3#8), (1, 1#8), (2, 2#8)] i = s.X.read (p i) ∧
      Memory.read [(0, 0x7C#8), (1, 0x3E#8), (2, 0x68#8)] i = s.Y.read (p i)) := by
  intro s p
  refine ⟨fun i hi => ?_, fun i j hi hj h => ?_, fun i hi => ?_⟩
  · have hi3 : i < 3 := hi
    interval_cases i <;> decide
  · have hi3 : i < 3 := hi
    have hj3 : j < 3 := hj
    interval_cases i <;> interval_cases j <;> first | rfl | (revert h; decide)
  · have hi3 : i < 3 := hi
    interval_cases i <;> decide

/-- PickShufflesAnswers, PickSelectsAPermutation, PickDrawCounts: no count, a FAIL, a selection, and a waiting request. -/
theorem witness_pick_clauses :
    banksWf (picking 1 []) = true ∧ readG (picking 0 []) 1 = 0#8 ∧ readG (picking 1 []) 1 ≠ 0#8 ∧
    pickResult (picking 1 [.fail]) 1 = .failed [] ∧ pickResult (picking 1 []) 1 = .waiting ∧
    (match pickResult (picking 1 [.byte 0xFE]) 1 with
      | .selected x rest => x.read 0 == 0xFF#8 && rest == []
      | .failed _ => false
      | .waiting => false) = true ∧
    (picking 1 [.byte 0xFE]).busy = true ∧ (after (exec (.pick 1) (picking 1 [.byte 0xFE]))).busy = false ∧
    (after (exec (.pick 1) (picking 1 [.byte 0xFE]))).err = 0#8 := by decide +kernel

/-- ShuffleFollowsTheRule: its clauses at the ends of their ranges (m = 255, limit 255; m = 1, limit 256). -/
theorem witness_shuffle_clauses :
    Memory.wf [] = true ∧ 256 - 256 % (255 - 0) ≤ (0xFF#8).toNat ∧ (0xFE#8).toNat < 256 - 256 % (255 - 0) ∧
    (0xFF#8).toNat < 256 - 256 % (255 - 254) ∧ (254 : Nat) < 255 ∧ (255 : Nat) ≤ 255 := by decide

/-- PickSwapIndexIsUnbiased and PickDrawCounts: the last step, with one candidate. -/
theorem witness_last_step : (254 : Nat) < 255 ∧ (0 : Nat) < 255 - 254 := by decide

/-- DecodeMatchesTheOpcodeRows, EncodeOfDecodeIsTheWord, StepRunsTheDecodedCommand: a word that decodes; and two illegal ones. -/
theorem witness_decoded : decode 0x01312000#32 = some (.add 3 1 2) ∧ decode (BitVec.ofNat 32 0x01312000) = some (.add 3 1 2) ∧
    0x01312000 < 2 ^ 32 ∧ decode 0x05000000#32 = none ∧ (accept 0x01312000#32 State.reset).busy = true ∧
    (accept 0x01312000#32 State.reset).inputs = [] ∧ ∀ rs1, Instr.add 3 1 2 ≠ .pick rs1 := by
  refine ⟨by decide, by decide, by decide, by decide, rfl, rfl, fun rs1 h => by cases h⟩

/-- StepRunsTheDecodedCommand: a turn of the sequencer in the input list. -/
theorem witness_turn_in_inputs :
    let s := { accept 0x01312000#32 State.reset with inputs := [.sequencer, .read 0x004 4] }
    s.busy = true ∧ decode s.cmd = some (.add 3 1 2) ∧ s.inputs = .sequencer :: [.read 0x004 4] := by decide

/-- SequencerTurnCompletes, IllegalWordsRaiseIllegalCommand, FirstFailingCheckIsReported: running states, legal and illegal. -/
theorem witness_running : (accept 0x03210000#32 State.reset).busy = true ∧
    decode (accept 0x03210000#32 State.reset).cmd = some (.inv 2 1) ∧ ¬ awaitsEntropy (.inv 2 1) (accept 0x03210000#32 State.reset) ∧
    (accept 0x05000000#32 State.reset).busy = true ∧ decode (accept 0x05000000#32 State.reset).cmd = none ∧
    State.reset.busy = false := by
  refine ⟨rfl, by decide, fun h => ?_, rfl, by decide, rfl⟩
  obtain ⟨rs1, h, -⟩ := h
  cases h

/-- FailedCommandsWriteNothing: a command that has failed, and a PICK that has. -/
theorem witness_failed :
    banksWf (accept 0x03210000#32 State.reset) = true ∧
    (after (sequencerTurn (accept 0x03210000#32 State.reset))).busy = false ∧
    (after (sequencerTurn (accept 0x03210000#32 State.reset))).err = 0x01#8 ∧
    (after (sequencerTurn (picking 1 [.fail]))).err = ErrorKind.randomnessFailure.code := by decide +kernel

/-- The host-access statements: a legal access to each kind of place, an illegal one, idle and running. -/
theorem witness_access :
    place 0x000#12 4 = some .cmd ∧ place 0x004#12 4 = some .status ∧ place 0x008#12 4 = some .ctrl ∧ place 0x00C#12 4 = some .id ∧
    place 0xFFC#12 4 = some (.y 255) ∧ (Place.y 255).isStorage = true ∧ place 0x010#12 4 = none ∧ place 0x040#12 1 = none ∧
    State.reset.busy = false ∧ (accept 0 State.reset).busy = true ∧ banksWf State.reset = true ∧
    banksWf (accept 0 State.reset) = true ∧ (0xFFFFFFFF#32).getLsbD 1 = true ∧ (0x00000001#32).getLsbD 1 = false := by decide

/-- The step statements with one event in the list, and the state that step gives. -/
theorem witness_events :
    ({ State.reset with inputs := [.write 0x000#12 4 5] } : State).inputs = .write 0x000#12 4 5 :: [] ∧
    ({ State.reset with inputs := [.write 0x008#12 4 2] } : State).inputs = .write 0x008#12 4 2 :: [] ∧
    ({ State.reset with inputs := [.read 0x010#12 4] } : State).inputs = .read 0x010#12 4 :: [] ∧
    ({ picking 1 [] with inputs := [.entropy .fail] } : State).inputs = .entropy .fail :: [] ∧
    requestPending { picking 1 [] with inputs := [.entropy .fail] } = true ∧
    requestPending { State.reset with inputs := [.entropy .fail] } = false := by decide +kernel

/-- The state before a CMD write while idle, and while busy. -/
def cmdWriteNext (busy : Bool) : State := { State.reset with busy := busy, inputs := [.write 0x000 4 0x00000000] }

/-- BusyChangesOnlyByRule, DoneChangesOnlyByRule, OvrAndHazAreSticky, ErrHoldsTheLastOutcome: BUSY rises, OVR rises. -/
theorem witness_cmd_write (busy : Bool) : HostWrites (cmdWriteNext busy) .cmd 0x00000000 ∧
    ∃ t, step (cmdWriteNext busy) = .next t ∧ t.busy = true ∧ t.ovr = busy := by
  refine ⟨⟨0x000, 4, rfl, by decide⟩, ?_⟩
  cases busy
  · exact ⟨after (step (cmdWriteNext false)), rfl, rfl, rfl⟩
  · exact ⟨after (step (cmdWriteNext true)), rfl, rfl, rfl⟩

/-- The same statements: BUSY falls and DONE rises, with the error code of the completion; the interrupt rises. -/
theorem witness_completion :
    let s := { accept 0x03210000#32 State.reset with ie := true }
    SequencerRuns s ∧ ∃ t, step s = .next t ∧ t.busy = false ∧ s.done = false ∧ t.done = true ∧ t.err ≠ s.err ∧
      irq s = false ∧ irq t = true :=
  ⟨⟨rfl, .inl rfl⟩, complete _ (some .divideByZero), rfl, rfl, rfl, rfl, by decide, rfl, rfl⟩

/-- The same statements: DONE, OVR and HAZ fall by a STATUS write. -/
theorem witness_status_write :
    let s := { State.reset with done := true, ovr := true, haz := true, ie := true, inputs := [.write 0x004 4 0x0000000E] }
    HostWrites s .status 0x0000000E ∧ ∃ t, step s = .next t ∧ t.done = false ∧ t.ovr = false ∧ t.haz = false ∧ irq t = false :=
  ⟨⟨0x004, 4, rfl, by decide⟩, _, rfl, rfl, rfl, rfl, rfl⟩

/-- OvrAndHazAreSticky: HAZ rises by a storage read while busy. -/
theorem witness_haz :
    let s := { accept 0 State.reset with inputs := [.read 0x040 4] }
    HostReads s (.g 0) ∧ s.busy = true ∧ ∃ t, step s = .next t ∧ s.haz = false ∧ t.haz = true :=
  ⟨⟨0x040, 4, rfl, by decide⟩, rfl, _, rfl, rfl, rfl⟩

/-- InterruptLineFollowsDoneAndIe: enabling the interrupt with DONE = 1 raises it, IE = 0 lowers it. -/
theorem witness_irq_enable :
    let s := { State.reset with done := true, inputs := [.write 0x008 4 1] }
    HostWrites s .ctrl 1 ∧ ∃ t, step s = .next t ∧ irq s = false ∧ irq t = true :=
  ⟨⟨0x008, 4, rfl, by decide⟩, _, rfl, rfl, rfl⟩

/-- BothResetsGiveTheResetState, BusyChangesOnlyByRule: both kinds of reset, of a running core. -/
theorem witness_resets :
    ResetNext { accept 0 (regs 1 2 3) with inputs := [.reset] } ∧
    ResetNext { accept 0 (regs 1 2 3) with inputs := [.write 0x008 4 0x00000003] } :=
  ⟨.inl rfl, .inr ⟨0x00000003, ⟨0x008, 4, rfl, by decide⟩, by decide⟩⟩

/-- StepKeepsCoreInv: a running PICK with an answer it consumes, and a step from it. -/
theorem witness_invariant : CoreInv (picking 3 [.byte 5]) ∧ ∃ t, step (picking 3 [.byte 5]) = .next t := by
  refine ⟨⟨by decide, by decide, by decide, by decide +kernel⟩, ?_⟩
  rcases sequencerTurn_cases (picking 3 [.byte 5]) rfl with ⟨h, -⟩ | ⟨w, e, h, -⟩
  · exact ⟨_, (step_nil rfl).trans h⟩
  · exact ⟨_, (step_nil rfl).trans h⟩

/-- RegistersChangeOnlyByRule: a command writes G3; a host write sets G15; BankElementsChangeOnlyByRule: a host write sets C[255]. -/
theorem witness_changes :
    readG (ran 0x01312000 (regs 0x57 0x83 0)) 3 ≠ readG (regs 0x57 0x83 0) 3 ∧
    readG (accessed (.write 0x07C 4 1) State.reset) 15 ≠ readG State.reset 15 ∧
    (accessed (.write 0x7FC 4 1) State.reset).C.read 255 ≠ State.reset.C.read 255 := by decide +kernel

/-- PolynomialCommandsReadOnlyTheirElements: two states that differ only beyond k. -/
theorem witness_beyond_length :
    let s := scenarioB (regs 2 3 3)
    let s' := { s with C := s.C.write 255 9, X := s.X.write 255 9, Y := s.Y.write 3 9 }
    SameRegs s s' ∧ ∀ a, a < countOf s 2 → s'.C.read a = s.C.read a ∧ s'.X.read a = s.X.read a ∧ s'.Y.read a = s.Y.read a := by
  refine ⟨fun r => rfl, fun a ha => ?_⟩
  have ha3 : a < 3 := ha
  interval_cases a <;> decide

/-- RunningCommandHidesStorage: two running states that differ in a register, with a host read next. -/
theorem witness_hidden :
    let s := { accept 0 (regs 1 2 3) with inputs := [.read 0x044 4] }
    let s' := { accept 0 (regs 9 2 3) with inputs := [.read 0x044 4] }
    SameControl s s' ∧ s.busy = true ∧ s.inputs ≠ [] ∧ s.inputs.head? ≠ some .sequencer ∧ readG s 1 ≠ readG s' 1 ∧
      (∃ t, step s = .next t) ∧ ∃ t', step s' = .next t' :=
  ⟨⟨rfl, rfl, rfl, rfl, rfl, rfl, rfl, rfl, rfl⟩, rfl, by decide, by decide, by decide, ⟨_, rfl⟩, ⟨_, rfl⟩⟩

/-- GfFieldLaws, GfinvIsTheUniqueInverse: a nonzero element. WindowBaseIsFree: addresses on both sides of the window. -/
theorem witness_field_and_window : (0x53#8 : Byte) ≠ 0#8 ∧
    (0xFFF < (⟨0x1000, 0⟩ : Platform).windowBase) ∧ (⟨0x1000, 0⟩ : Platform).windowBase + 4096 ≤ 0x2000 := by decide

end Sys2Proof.Tests
end

section
/-! SUPPORT. What one step can do, said once: the next event and the state it acts on, the legal host access by the place it names,
how a command ends, and the inversion lemma `StepEffect.of_step`, which the rules on STATUS, CTRL and the operand registers are
read off from. -/

namespace Sys2Proof.Machine

/-! ### The next event -/

/-- The event the next step takes: with none left, the sequencer's turn (log entry 1). -/
def nextInput (s : State) : Input := s.inputs.head?.getD .sequencer

/-- The state the next event acts on: the event itself is gone from the list. -/
def State.pop (s : State) : State := { s with inputs := s.inputs.tail }

section
variable (s : State)

@[simp] theorem pop_G : s.pop.G = s.G := rfl
@[simp] theorem pop_C : s.pop.C = s.C := rfl
@[simp] theorem pop_X : s.pop.X = s.X := rfl
@[simp] theorem pop_Y : s.pop.Y = s.Y := rfl
@[simp] theorem pop_cmd : s.pop.cmd = s.cmd := rfl
@[simp] theorem pop_busy : s.pop.busy = s.busy := rfl
@[simp] theorem pop_done : s.pop.done = s.done := rfl
@[simp] theorem pop_ovr : s.pop.ovr = s.ovr := rfl
@[simp] theorem pop_haz : s.pop.haz = s.haz := rfl
@[simp] theorem pop_err : s.pop.err = s.err := rfl
@[simp] theorem pop_ie : s.pop.ie = s.ie := rfl
@[simp] theorem pop_draws : s.pop.draws = s.draws := rfl
@[simp] theorem pop_inputs : s.pop.inputs = s.inputs.tail := rfl
@[simp] theorem pop_response : s.pop.response = s.response := rfl
@[simp] theorem readG_pop (r : Reg) : readG s.pop r = readG s r := rfl
@[simp] theorem requestPending_pop : requestPending s.pop = requestPending s := rfl

end

/-- Every step is one event. -/
theorem step_eq (s : State) : step s = event (nextInput s) s.pop := by
  cases h : s.inputs with
  | nil =>
    have hpop : s.pop = s := by cases s; cases h; rfl
    rw [step_nil h, hpop]
    simp [nextInput, h, event]
  | cons e rest => rw [step_cons h]; simp [nextInput, State.pop, h]

theorem sequencerRuns_iff {s : State} : SequencerRuns s ↔ s.busy = true ∧ nextInput s = .sequencer := by
  unfold SequencerRuns nextInput
  cases s.inputs <;> simp

theorem hostWrites_iff {s : State} {p : Place} {v : Word} :
    HostWrites s p v ↔ ∃ off width, nextInput s = .write off width v ∧ place off width = some p := by
  unfold HostWrites nextInput
  cases s.inputs <;> simp

theorem hostReads_iff {s : State} {p : Place} :
    HostReads s p ↔ ∃ off width, nextInput s = .read off width ∧ place off width = some p := by
  unfold HostReads nextInput
  cases s.inputs <;> simp

theorem resetNext_iff {s : State} :
    ResetNext s ↔ nextInput s = .reset ∨ ∃ v, HostWrites s .ctrl v ∧ v.getLsbD 1 = true := by
  unfold ResetNext nextInput
  cases s.inputs <;> simp

/-! ### Legal host accesses, by the place they name -/

/-- A place holds an element, or is one of the four registers of the window. -/
theorem Place.storage_or_register (p : Place) :
    p.isStorage = true ∨ p = .cmd ∨ p = .status ∨ p = .ctrl ∨ p = .id := by
  cases p <;> simp [Place.isStorage]

/-- R37: what a legal host write to a place does. -/
def placeWrite (p : Place) (v : Word) (s : State) : State :=
  match p with
  | .cmd => cmdWrite v s
  | .status => statusWrite v s
  | .ctrl => ctrlWrite v s
  | .id => s
  | p => storageWrite p v s

/-- R36, R39: what a legal host read of a place does: it sets HAZ for an element while a command runs. -/
def placeRead (p : Place) (s : State) : State := if p.isStorage && s.busy then { s with haz := true } else s

theorem placeWrite_storage {p : Place} (hp : p.isStorage = true) (v : Word) (s : State) :
    placeWrite p v s = storageWrite p v s := by
  cases p with
  | cmd | status | ctrl | id => cases hp
  | g | c | x | y => rfl

theorem memWrite_legal {off : Offset} {width : Nat} {p : Place} (h : place off width = some p) (v : Word) (s : State) :
    memWrite off width v s = (placeWrite p v s, .ack) := by
  rcases p.storage_or_register with hp | rfl | rfl | rfl | rfl
  · rw [memWrite_storage h hp, placeWrite_storage hp]
  all_goals simp [memWrite, h, placeWrite]

theorem memRead_legal {off : Offset} {width : Nat} {p : Place} (h : place off width = some p) (s : State) :
    (memRead off width s).1 = placeRead p s := by
  rcases p.storage_or_register with hp | rfl | rfl | rfl | rfl
  · rw [memRead_storage h hp]
    cases hb : s.busy <;> simp [storageRead, placeRead, hp, hb]
  all_goals simp [memRead, h, placeRead, Place.isStorage]

section
variable (p : Place) (v : Word) (s : State)

@[simp] theorem storeAt_busy : (storeAt p v s).busy = s.busy := by cases p <;> rfl
@[simp] theorem storeAt_done : (storeAt p v s).done = s.done := by cases p <;> rfl
@[simp] theorem storeAt_ovr : (storeAt p v s).ovr = s.ovr := by cases p <;> rfl
@[simp] theorem storeAt_haz : (storeAt p v s).haz = s.haz := by cases p <;> rfl
@[simp] theorem storeAt_err : (storeAt p v s).err = s.err := by cases p <;> rfl

/-- A host write changes the operand register it names and no other. -/
theorem readG_storeAt (r : Reg) : readG (storeAt p v s) r = if p = .g r then v.extractLsb' 0 8 else readG s r := by
  cases p with
  | g i => simp [storeAt, readG_writeG, eq_comm]
  | cmd | status | ctrl | id | c | x | y => rfl

end

/-! ### The step, for each agent that may move next -/

theorem step_of_sequencerRuns {s : State} (h : SequencerRuns s) : step s = sequencerTurn s.pop := by
  rw [step_eq, (sequencerRuns_iff.mp h).2, event]

theorem step_of_hostWrites {s : State} {p : Place} {v : Word} (h : HostWrites s p v) :
    step s = .next (respond (placeWrite p v s.pop, .ack)) := by
  obtain ⟨off, width, hnext, hplace⟩ := hostWrites_iff.mp h
  rw [step_eq, hnext, event, memWrite_legal hplace]

theorem step_of_hostReads {s : State} {p : Place} (h : HostReads s p) :
    ∃ r, step s = .next (respond (placeRead p s.pop, r)) := by
  obtain ⟨off, width, hnext, hplace⟩ := hostReads_iff.mp h
  exact ⟨(memRead off width s.pop).2, by rw [step_eq, hnext, event, ← memRead_legal hplace]⟩

/-- R96: both kinds of reset. -/
theorem step_of_resetNext {s : State} (h : ResetNext s) :
    ∃ r, step s = .next { resetCore s.pop with response := r } := by
  rcases resetNext_iff.mp h with hnext | ⟨v, hw, hv⟩
  · exact ⟨s.response, by rw [step_eq, hnext, event]; rfl⟩
  · refine ⟨some .ack, ?_⟩
    rw [step_of_hostWrites hw, placeWrite, ctrlWrite, if_pos hv]
    rfl

/-! ### Inverses, quotients and the interpolant exist -/

/-- The `2 ^ n`-th power of a field element. -/
def gfsquares : Nat → Byte → Byte
  | 0, a => a
  | n + 1, a => gfsquares n (gfmul a a)

/-- a^254, the closed form of the inverse (R61), by an addition chain: 3 = 2 + 1, 15 = 12 + 3, 254 = 240 + 12 + 2. -/
def gfpow254 (a : Byte) : Byte :=
  let a2 := gfsquares 1 a
  let a3 := gfmul a2 a
  let a12 := gfsquares 2 a3
  let a15 := gfmul a12 a3
  gfmul (gfmul (gfsquares 4 a15) a12) a2

theorem gfmul_gfpow254 : ∀ a : Byte, a ≠ 0#8 → gfmul a (gfpow254 a) = 1#8 := by decide +kernel

/-- R61: every nonzero element has an inverse. -/
theorem exists_gfinv {a : Byte} (ha : a ≠ 0#8) : ∃ b, gfinv a = some b :=
  let ⟨b, hb, _⟩ := gfinv_of_gfmul (gfmul_gfpow254 a ha)
  ⟨b, hb⟩

/-- R62: there is a quotient by every nonzero element. -/
theorem exists_gfdiv (a : Byte) {b : Byte} (hb : b ≠ 0#8) : ∃ q, gfdiv a b = some q := by
  obtain ⟨i, hi⟩ := exists_gfinv hb
  exact ⟨gfmul a i, gfdiv_eq_some.mpr ⟨i, hi, rfl⟩⟩

/-- A fold whose every step over the list has a value has a value. -/
theorem exists_foldlM {α β : Type} {f : β → α → Option β} {l : List α}
    (hf : ∀ x ∈ l, ∀ b, ∃ b', f b x = some b') (b : β) : ∃ b', l.foldlM f b = some b' := by
  induction l generalizing b with
  | nil => exact ⟨b, rfl⟩
  | cons x xs ih =>
    obtain ⟨b', hb'⟩ := hf x List.mem_cons_self b
    obtain ⟨c, hc⟩ := ih (fun y hy => hf y (List.mem_cons_of_mem x hy)) b'
    exact ⟨c, by simp [hb', hc]⟩

/-- R71: the duplicate check finds any two equal coordinates. -/
theorem read_ne_of_not_hasDuplicate {xs : Memory} {k i j : Nat} (h : hasDuplicate xs k = false) (hi : i < k) (hj : j < k)
    (hij : j ≠ i) : xs.read i ≠ xs.read j := by
  simp only [hasDuplicate, List.any_eq_false, List.mem_range, Bool.not_eq_true, Bool.and_eq_false_iff,
    decide_eq_false_iff_not, beq_eq_false_iff_ne] at h
  rcases Nat.lt_or_gt_of_ne hij with hlt | hlt
  · exact ((h j hj i hi).resolve_left (fun hn => hn hlt)).symm
  · exact (h i hi j hj).resolve_left (fun hn => hn hlt)

/-- R71, log entry 7: over distinct coordinates no divisor of the interpolant is 0, so it has a value. -/
theorem exists_interpolate {xs : Memory} {k : Nat} (h : hasDuplicate xs k = false) (ys : Memory) (z : Byte) :
    ∃ v, interpolate xs ys k z = some v := by
  have hbasis : ∀ i < k, ∃ b, lagrangeBasis xs k z i = some b := fun i hi => by
    refine exists_foldlM (fun j hj b => ?_) _
    unfold basisStep
    split
    · exact ⟨b, rfl⟩
    · rename_i hji
      have hdiv : gfadd (xs.read i) (xs.read j) ≠ 0#8 := fun h0 =>
        read_ne_of_not_hasDuplicate h hi (List.mem_range.mp hj) hji (BitVec.xor_eq_zero_iff.mp h0)
      obtain ⟨q, hq⟩ := exists_gfdiv (gfadd z (xs.read j)) hdiv
      exact ⟨gfmul b q, by rw [hq]; rfl⟩
  refine exists_foldlM (fun i hi acc => ?_) _
  obtain ⟨b, hb⟩ := hbasis i (List.mem_range.mp hi)
  exact ⟨_, by rw [hb]; rfl⟩

/-! ### How a command ends -/

/-- Every way a command can end, with what it has written and the outcome the table of R85 gives it. -/
inductive CommandEnd (s : State) : Instr → State → Prop where
  /-- A PICK waits for the entropy port (R76). -/
  | waits {i : Instr} (h : awaitsEntropy i s) : CommandEnd s i s
  /-- A check fails and nothing is written (R84). -/
  | fails {i : Instr} {e : ErrorKind} (h : firstError i s = some e) : CommandEnd s i (complete s (some e))
  /-- The entropy port fails and PICK clears its coordinates (R74, R84). -/
  | clearsCoordinates {rs1 : Reg} (h : firstError (.pick rs1) s = some .randomnessFailure) :
      CommandEnd s (.pick rs1) (complete { s with X := clearedCoordinates s.X } (some .randomnessFailure))
  /-- PICK selects its coordinates. -/
  | selects {rs1 : Reg} {x : Memory} {rest : List Draw} (h : firstError (.pick rs1) s = none)
      (hx : pickResult s rs1 = .selected x rest) : CommandEnd s (.pick rs1) (complete { s with X := x } none)
  /-- A command with a destination register writes it. -/
  | writes {i : Instr} {rd : Reg} (hd : destination i = some rd) (h : firstError i s = none) (v : Byte) :
      CommandEnd s i (complete (writeG s rd v) none)
  /-- NOP only completes. -/
  | nop : CommandEnd s .nop (complete s none)
  /-- WIPE zeroes what it selects. -/
  | wipes (mask : WipeMask) :
      CommandEnd s (.wipe mask)
        (complete
          { s with
            C := wipeBank (maskC mask) s.C
            X := wipeBank (maskX mask) s.X
            Y := wipeBank (maskY mask) s.Y
            G := wipeRegs (maskG mask) s.G } none)

/-- A quotient that exists is written. -/
theorem CommandEnd.of_quotient {s t : State} {i : Instr} {rd : Reg} {v : Option Byte} (hd : destination i = some rd)
    (h : firstError i s = none) (hv : ∃ q, v = some q) (ht : succeedOrDivideByZero rd v s = .next t) :
    CommandEnd s i t := by
  obtain ⟨q, rfl⟩ := hv
  cases ht
  exact .writes hd h q

theorem CommandEnd.of_exec_inv {s t : State} {rd rs1 : Reg} (h : exec (.inv rd rs1) s = .next t) :
    CommandEnd s (.inv rd rs1) t := by
  simp only [exec, execInv] at h
  split at h
  · rename_i h0
    cases h
    exact .fails (by simp [firstError, h0])
  · rename_i h0
    exact .of_quotient rfl (by simp [firstError, h0]) (exists_gfinv h0) h

theorem CommandEnd.of_exec_div {s t : State} {rd rs1 rs2 : Reg} (h : exec (.div rd rs1 rs2) s = .next t) :
    CommandEnd s (.div rd rs1 rs2) t := by
  simp only [exec, execDiv] at h
  split at h
  · rename_i h0
    cases h
    exact .fails (by simp [firstError, h0])
  · rename_i h0
    exact .of_quotient rfl (by simp [firstError, h0]) (exists_gfdiv _ h0) h

theorem CommandEnd.of_exec_eval {s t : State} {rd rs1 rs2 : Reg} (h : exec (.eval rd rs1 rs2) s = .next t) :
    CommandEnd s (.eval rd rs1 rs2) t := by
  simp only [exec, execEval, countOf_eq_zero_iff] at h
  split at h
  · rename_i h0
    cases h
    exact .fails (by simp [firstError, h0])
  · rename_i h0
    cases h
    exact .writes rfl (by simp [firstError, h0]) _

theorem CommandEnd.of_exec_interp {s t : State} {rd rs1 rs2 rs3 : Reg} (h : exec (.interp rd rs1 rs2 rs3) s = .next t) :
    CommandEnd s (.interp rd rs1 rs2 rs3) t := by
  have hcount : countOf s rs2 ≠ countOf s rs3 ↔ readG s rs2 ≠ readG s rs3 := by
    rw [countOf_eq, countOf_eq, ne_eq, BitVec.toNat_inj]
  simp only [exec, execInterp, hcount, countOf_eq_zero_iff] at h
  split at h
  · rename_i hlen
    cases h
    exact .fails (by simp [firstError, hlen])
  · rename_i hlen
    split at h
    · rename_i h0
      cases h
      exact .fails (by simp only [firstError, if_neg hlen, if_pos h0])
    · rename_i h0
      split at h
      · rename_i hdup
        cases h
        exact .fails (by simp only [firstError, if_neg hlen, if_neg h0, if_pos hdup])
      · rename_i hdup
        exact .of_quotient rfl (by simp only [firstError, if_neg hlen, if_neg h0, if_neg hdup])
          (exists_interpolate (Bool.not_eq_true _ ▸ hdup) _ _) h

theorem CommandEnd.of_exec_pick {s t : State} {rs1 : Reg} (h : exec (.pick rs1) s = .next t) :
    CommandEnd s (.pick rs1) t := by
  simp only [exec, execPick] at h
  split at h
  · rename_i h0
    cases h
    exact .fails (by simp [firstError, (countOf_eq_zero_iff s rs1).mp h0])
  · rename_i h0
    have hn : readG s rs1 ≠ 0#8 := fun hr => h0 ((countOf_eq_zero_iff s rs1).mpr hr)
    split at h
    · rename_i hx
      cases h
      exact .selects (by simp [firstError, hn, hx]) hx
    · rename_i hx
      cases h
      exact .clearsCoordinates (by simp [firstError, hn, hx])
    · rename_i hx
      cases h
      exact .waits ⟨rs1, rfl, h0, hx⟩

/-- The inversion lemma of the commands. -/
theorem CommandEnd.of_exec {s t : State} {i : Instr} (h : exec i s = .next t) : CommandEnd s i t := by
  cases i with
  | nop => cases h; exact .nop
  | add rd rs1 rs2 => cases h; exact .writes rfl rfl _
  | mul rd rs1 rs2 => cases h; exact .writes rfl rfl _
  | inv rd rs1 => exact .of_exec_inv h
  | div rd rs1 rs2 => exact .of_exec_div h
  | eval rd rs1 rs2 => exact .of_exec_eval h
  | interp rd rs1 rs2 rs3 => exact .of_exec_interp h
  | pick rs1 => exact .of_exec_pick h
  | wipe mask => cases h; exact .wipes mask

/-- R83, R85: a command that does not wait completes with the first failing check of the rule's table. -/
theorem CommandEnd.completed {s t : State} {i : Instr} (h : CommandEnd s i t) :
    (t = s ∧ awaitsEntropy i s) ∨ CompletedWith (firstError i s) s t := by
  cases h with
  | waits h => exact .inl ⟨rfl, h⟩
  | fails h => exact .inr (h ▸ complete_completedWith _ (SameRest.refl s))
  | clearsCoordinates h => exact .inr (h ▸ complete_completedWith _ (StorageOf.withX s _).sameRest)
  | selects h hx => exact .inr (h ▸ complete_completedWith _ (StorageOf.withX s _).sameRest)
  | writes hd h v => exact .inr (h ▸ complete_completedWith _ (SameRest.refl s))
  | nop => exact .inr (complete_completedWith _ (SameRest.refl s))
  | wipes mask => exact .inr (complete_completedWith _ (SameRest.refl s))

/-- R14: the operand registers a command changes. -/
theorem CommandEnd.register_changed {s t : State} {i : Instr} {r : Reg} (h : CommandEnd s i t)
    (hr : readG t r ≠ readG s r) :
    (destination i = some r ∧ t.err = 0#8) ∨ ∃ mask, i = .wipe mask ∧ mask.getLsbD 3 = true := by
  cases h with
  | @writes _ rd hd h v =>
    rw [readG_complete, readG_writeG] at hr
    by_cases hrd : r = rd
    · exact .inl ⟨hrd ▸ hd, rfl⟩
    · exact absurd (if_neg hrd) hr
  | wipes mask =>
    cases hm : maskG mask with
    | true => exact .inr ⟨mask, rfl, hm⟩
    | false => simp [hm, wipeRegs, readG] at hr
  | waits | fails | clearsCoordinates | selects | nop => simp [readG] at hr

/-! ### The sequencer's turn -/

/-- The outcome of the command word in CMD: IllegalCommand, or the first failing check of the command (R54, R85). -/
def turnOutcome (s : State) : Option ErrorKind :=
  match decode s.cmd with
  | none => some .illegalCommand
  | some i => firstError i s

theorem turnOutcome_of_illegal {s : State} (h : decode s.cmd = none) : turnOutcome s = some .illegalCommand := by
  simp [turnOutcome, h]

theorem turnOutcome_of_decode {s : State} {i : Instr} (h : decode s.cmd = some i) : turnOutcome s = firstError i s := by
  simp [turnOutcome, h]

/-- A turn of a running command raises IllegalCommand, or is the end of the decoded command. -/
theorem commandEnd_of_sequencerTurn {s t : State} (hb : s.busy = true) (h : sequencerTurn s = .next t) :
    (decode s.cmd = none ∧ t = complete s (some .illegalCommand)) ∨
      ∃ i, decode s.cmd = some i ∧ CommandEnd s i t := by
  simp only [sequencerTurn, hb, if_true] at h
  cases hd : decode s.cmd with
  | none => simp only [hd] at h; cases h; exact .inl ⟨rfl, rfl⟩
  | some i => simp only [hd] at h; exact .inr ⟨i, rfl, .of_exec h⟩

/-- R83: a turn of a running command waits, changing nothing, or is a completion. -/
theorem completed_of_sequencerTurn {s t : State} (hb : s.busy = true) (h : sequencerTurn s = .next t) :
    t = s ∨ CompletedWith (turnOutcome s) s t := by
  rcases commandEnd_of_sequencerTurn hb h with ⟨hd, rfl⟩ | ⟨i, hd, hend⟩
  · exact .inr (turnOutcome_of_illegal hd ▸ complete_completedWith _ (SameRest.refl s))
  · exact hend.completed.imp (·.1) (turnOutcome_of_decode hd ▸ ·)

/-! ### The inversion lemma of a step -/

/-- Everything a step can do, with who moved. -/
inductive StepEffect (s : State) : State → Prop where
  /-- The sequencer's turn, with a command running. -/
  | turn {t : State} (hrun : SequencerRuns s) (hturn : sequencerTurn s.pop = .next t) : StepEffect s t
  /-- The turn of an idle sequencer, or an entropy answer that is discarded. -/
  | nothing : StepEffect s s.pop
  /-- An answer to the request in progress (R92). -/
  | takesDraw (d : Draw) (hreq : requestPending s = true) : StepEffect s { s.pop with draws := s.draws ++ [d] }
  /-- A host access that the core only answers. -/
  | answers (a : Response) : StepEffect s (respond (s.pop, a))
  /-- A CMD write while idle (R38). -/
  | accepts {v : Word} (hidle : s.busy = false) (hw : HostWrites s .cmd v) : StepEffect s (respond (accept v s.pop, .ack))
  /-- A CMD write while busy (R20). -/
  | overruns {v : Word} (hbusy : s.busy = true) (hw : HostWrites s .cmd v) :
      StepEffect s (respond ({ s.pop with ovr := true }, .ack))
  /-- A STATUS write (R17). -/
  | clears {v : Word} (hw : HostWrites s .status v) : StepEffect s (respond (statusWrite v s.pop, .ack))
  /-- A CTRL write with bit 1 = 0 (R25). -/
  | setsIe {v : Word} (hw : HostWrites s .ctrl v) (hsrst : v.getLsbD 1 = false) :
      StepEffect s (respond ({ s.pop with ie := v.getLsbD 0 }, .ack))
  /-- A reset of either kind (R96). -/
  | resets (hr : ResetNext s) (a : Option Response) : StepEffect s { resetCore s.pop with response := a }
  /-- An access to operand storage while busy (R21, R39). -/
  | refuses {p : Place} (hp : p.isStorage = true) (hbusy : s.busy = true)
      (hacc : HostReads s p ∨ ∃ v, HostWrites s p v) (a : Response) :
      StepEffect s (respond ({ s.pop with haz := true }, a))
  /-- A write of operand storage while idle (R37). -/
  | stores {p : Place} {v : Word} (hp : p.isStorage = true) (hidle : s.busy = false) (hw : HostWrites s p v) :
      StepEffect s (respond (storeAt p v s.pop, .ack))

theorem StepEffect.of_hostWrites {s : State} {p : Place} {v : Word} (hw : HostWrites s p v) :
    StepEffect s (respond (placeWrite p v s.pop, .ack)) := by
  rcases p.storage_or_register with hp | rfl | rfl | rfl | rfl
  · rw [placeWrite_storage hp]
    cases hb : s.busy with
    | true => simpa [storageWrite, hb] using StepEffect.refuses hp hb (.inr ⟨v, hw⟩) .ack
    | false => simpa [storageWrite, hb] using StepEffect.stores hp hb hw
  · cases hb : s.busy with
    | true => simpa [placeWrite, cmdWrite, hb] using StepEffect.overruns hb hw
    | false => simpa [placeWrite, cmdWrite, hb] using StepEffect.accepts hb hw
  · exact .clears hw
  · cases hv : v.getLsbD 1 with
    | true => rw [placeWrite, ctrlWrite, if_pos hv]; exact .resets (.inr ⟨v, hw, hv⟩) (some .ack)
    | false => rw [placeWrite, ctrlWrite, if_neg (Bool.eq_false_iff.mp hv)]; exact .setsIe hw hv
  · exact .answers .ack

theorem StepEffect.of_hostReads {s : State} {p : Place} (h : HostReads s p) (a : Response) :
    StepEffect s (respond (placeRead p s.pop, a)) := by
  cases hacc : p.isStorage && s.busy with
  | false => simpa [placeRead, hacc] using StepEffect.answers a
  | true =>
    obtain ⟨hp, hb⟩ := Bool.and_eq_true_iff.mp hacc
    simpa [placeRead, hp, hb] using StepEffect.refuses hp hb (.inl h) a

/-- The inversion lemma of `step`. -/
theorem StepEffect.of_step {s t : State} (h : step s = .next t) : StepEffect s t := by
  rw [step_eq] at h
  cases hnext : nextInput s with
  | read off width =>
    rw [hnext, event] at h
    cases h
    cases hplace : place off width with
    | none => rw [memRead_illegal hplace]; exact .answers _
    | some p =>
      have := StepEffect.of_hostReads (hostReads_iff.mpr ⟨off, width, hnext, hplace⟩) (memRead off width s.pop).2
      rwa [← memRead_legal hplace] at this
  | write off width v =>
    rw [hnext, event] at h
    cases h
    cases hplace : place off width with
    | none => rw [memWrite_illegal hplace]; exact .answers _
    | some p => rw [memWrite_legal hplace]; exact .of_hostWrites (hostWrites_iff.mpr ⟨off, width, hnext, hplace⟩)
  | entropy d =>
    rw [hnext, event] at h
    cases h
    cases hreq : requestPending s with
    | true => rw [entropyAnswer, requestPending_pop, if_pos hreq]; exact .takesDraw d hreq
    | false => rw [entropyAnswer, requestPending_pop, if_neg (Bool.eq_false_iff.mp hreq)]; exact .nothing
  | reset => rw [hnext, event] at h; cases h; exact .resets (resetNext_iff.mpr (.inl hnext)) s.response
  | sequencer =>
    rw [hnext, event] at h
    cases hb : s.busy with
    | true => exact .turn (sequencerRuns_iff.mpr ⟨hb, hnext⟩) h
    | false => rw [sequencerTurn_idle s.pop hb] at h; cases h; exact .nothing

end Sys2Proof.Machine
end

section
/-! PROOF. STATUS, CTRL, reset and the operand registers (spec/10_state.md): each rule is read off from `StepEffect.of_step`, and
from the step of the agent it speaks of. -/

namespace Sys2Proof.Machine

/-! ### The STATUS word -/

theorem flagWord_bit (b : Bool) (k : Nat) : (flagWord b).getLsbD k = (b && decide (k = 0)) := by
  cases b with
  | true => simp [flagWord, BitVec.getLsbD_one]
  | false => simp [flagWord]

/-- R17: the STATUS word, bit by bit. -/
theorem statusWord_bit (s : State) (k : Nat) :
    (statusWord s).getLsbD k =
      if k = 0 then s.busy else if k = 1 then s.done else if k = 2 then s.ovr else if k = 3 then s.haz
        else if 8 ≤ k ∧ k < 16 then s.err.getLsbD (k - 8) else false := by
  simp only [statusWord, BitVec.getLsbD_or, BitVec.getLsbD_shiftLeft, BitVec.getLsbD_setWidth, flagWord_bit]
  by_cases hk : k ≤ 3
  · interval_cases k <;> simp
  · have hne : k ≠ 0 ∧ k ≠ 1 ∧ k ≠ 2 ∧ k ≠ 3 := by omega
    have hsub : k - 3 ≠ 0 ∧ k - 2 ≠ 0 ∧ k - 1 ≠ 0 := by omega
    simp only [hne, hsub, if_false, decide_false, Bool.and_false, Bool.or_false]
    by_cases h8 : k < 8
    · simp [h8]
    · by_cases h16 : k < 16
      · simp [h8, h16, show 8 ≤ k by omega, show k < 32 by omega, show k - 8 < 32 by omega]
      · simp [h16, BitVec.getLsbD_of_ge s.err (k - 8) (by omega)]

/-- Settles O39: the bits of the word before and after the write, held against each other. -/
theorem statusWordFields : Obligations.StatusWordFields := by
  intro s v k
  have hw : (memWrite 0x004#12 4 v s).1 = statusWrite v s := by
    rw [memWrite_legal (p := .status) (by decide), placeWrite]
  refine ⟨statusWord_bit s k, ?_⟩
  rw [hw, statusWord_bit, statusWord_bit]
  by_cases hk : k ≤ 3
  · interval_cases k <;> simp
  · have hne : k ≠ 0 ∧ k ≠ 1 ∧ k ≠ 2 ∧ k ≠ 3 := by omega
    simp [hne, hk]

/-! ### The flags -/

/-- R83: a turn of a running command waits, changing nothing, or completes with the outcome of the word in CMD. -/
theorem turn_waits_or_completes {s t : State} (hrun : SequencerRuns s) (hturn : sequencerTurn s.pop = .next t) :
    t = s.pop ∨ (t.busy = false ∧ t.done = true ∧ t.err = outcomeCode (turnOutcome s)) := by
  refine (completed_of_sequencerTurn (s := s.pop) hrun.1 hturn).imp_right fun hc => ?_
  obtain ⟨hbusy, hdone, herr, -⟩ := hc
  exact ⟨hbusy, hdone, herr⟩

theorem turn_keeps_ovr_haz {s t : State} (hrun : SequencerRuns s) (hturn : sequencerTurn s.pop = .next t) :
    t.ovr = s.ovr ∧ t.haz = s.haz := by
  rcases completed_of_sequencerTurn (s := s.pop) hrun.1 hturn with rfl | ⟨-, -, -, -, -, hovr, hhaz, -⟩
  · exact ⟨rfl, rfl⟩
  · exact ⟨hovr, hhaz⟩

/-- R83: a turn that ends the command. -/
theorem completes_of_idle {s t : State} (h : step s = .next t) (hrun : SequencerRuns s) (ht : t.busy = false) :
    t.done = true ∧ t.err = outcomeCode (turnOutcome s) := by
  rw [step_of_sequencerRuns hrun] at h
  rcases turn_waits_or_completes hrun h with rfl | ⟨-, hdone, herr⟩
  · simp [hrun.1] at ht
  · exact ⟨hdone, herr⟩

/-- R38: a CMD write while idle is accepted. -/
theorem accepted_of_idle {s t : State} (h : step s = .next t) (hb : s.busy = false) (hw : ∃ v, HostWrites s .cmd v) :
    t.busy = true ∧ t.done = false ∧ t.err = 0#8 := by
  obtain ⟨v, hw⟩ := hw
  rw [step_of_hostWrites hw] at h
  cases h
  simp [placeWrite, cmdWrite, hb]

/-- Settles O40: BUSY in each effect of a step. -/
theorem busyChangesOnlyByRule : Obligations.BusyChangesOnlyByRule := by
  intro s t h
  refine ⟨fun hb ht => ?_, fun hb ht => ?_, fun hb hw => (accepted_of_idle h hb hw).1, fun hr => ?_⟩
  · cases StepEffect.of_step h with
    | accepts hidle hw => exact ⟨_, hw⟩
    | turn hrun => exact absurd hrun.1 (by simp [hb])
    | _ => simp [hb] at ht
  · cases StepEffect.of_step h with
    | turn hrun => exact .inl hrun
    | resets hr => exact .inr hr
    | _ => simp [hb] at ht
  · obtain ⟨a, ha⟩ := step_of_resetNext hr
    rw [ha] at h
    cases h
    rfl

/-- Settles O41: DONE in each effect of a step. -/
theorem doneChangesOnlyByRule : Obligations.DoneChangesOnlyByRule := by
  intro s t h
  refine ⟨fun hb hw => (accepted_of_idle h hb hw).2.1, fun hrun ht => (completes_of_idle h hrun ht).1,
    fun hd ht => ?_, fun hd ht => ?_⟩
  · cases StepEffect.of_step h with
    | turn hrun hturn =>
      rcases turn_waits_or_completes hrun hturn with rfl | ⟨hbusy, -⟩
      · simp [hd] at ht
      · exact ⟨hrun, hbusy⟩
    | _ => simp [hd] at ht
  · cases StepEffect.of_step h with
    | turn hrun hturn =>
      rcases turn_waits_or_completes hrun hturn with rfl | ⟨-, hdone, -⟩
      · simp [hd] at ht
      · simp [hdone] at ht
    | clears hw => exact .inl ⟨_, hw, by simpa [hd] using ht⟩
    | accepts hidle hw => exact .inr (.inl ⟨hidle, _, hw⟩)
    | resets hr => exact .inr (.inr hr)
    | _ => simp [hd] at ht

/-- R21, R39: an access to operand storage while busy sets HAZ. -/
theorem haz_of_storage_access {s t : State} {p : Place} {v : Word} (h : step s = .next t) (hb : s.busy = true)
    (hp : p.isStorage = true) (hacc : HostReads s p ∨ HostWrites s p v) : t.haz = true := by
  rcases hacc with hr | hw
  · obtain ⟨a, ha⟩ := step_of_hostReads hr
    rw [ha] at h
    cases h
    simp [placeRead, hp, hb]
  · rw [step_of_hostWrites hw, placeWrite_storage hp] at h
    cases h
    simp [storageWrite, hb]

/-- R20: a CMD write while busy sets OVR. -/
theorem ovr_of_cmd_write {s t : State} {v : Word} (h : step s = .next t) (hb : s.busy = true) (hw : HostWrites s .cmd v) :
    t.ovr = true := by
  rw [step_of_hostWrites hw] at h
  cases h
  simp [placeWrite, cmdWrite, hb]

/-- R20: OVR rises only by a CMD write while busy, and falls only by its W1C bit or reset. -/
theorem ovr_changes {s t : State} (h : step s = .next t) :
    (s.ovr = false → t.ovr = true → s.busy = true ∧ ∃ v, HostWrites s .cmd v) ∧
    (s.ovr = true → t.ovr = false → (∃ v, HostWrites s .status v ∧ v.getLsbD 2 = true) ∨ ResetNext s) := by
  cases StepEffect.of_step h with
  | turn hrun hturn => simp +contextual [turn_keeps_ovr_haz hrun hturn]
  | overruns hbusy hw => exact ⟨fun _ _ => ⟨hbusy, _, hw⟩, by simp⟩
  | clears hw => exact ⟨by simp +contextual, fun ho ht => .inl ⟨_, hw, by simpa [ho] using ht⟩⟩
  | resets hr => exact ⟨by simp, fun _ _ => .inr hr⟩
  | _ => simp +contextual

/-- R21: HAZ rises only by a storage access while busy, and falls only by its W1C bit or reset. -/
theorem haz_changes {s t : State} (h : step s = .next t) :
    (s.haz = false → t.haz = true →
      s.busy = true ∧ ∃ p, p.isStorage = true ∧ (HostReads s p ∨ ∃ v, HostWrites s p v)) ∧
    (s.haz = true → t.haz = false → (∃ v, HostWrites s .status v ∧ v.getLsbD 3 = true) ∨ ResetNext s) := by
  cases StepEffect.of_step h with
  | turn hrun hturn => simp +contextual [turn_keeps_ovr_haz hrun hturn]
  | refuses hp hbusy hacc => exact ⟨fun _ _ => ⟨hbusy, _, hp, hacc⟩, by simp⟩
  | clears hw => exact ⟨by simp +contextual, fun ho ht => .inl ⟨_, hw, by simpa [ho] using ht⟩⟩
  | resets hr => exact ⟨by simp, fun _ _ => .inr hr⟩
  | _ => simp +contextual

/-- Settles O42: the event of each flag, and OVR and HAZ in each effect of a step. -/
theorem ovrAndHazAreSticky : Obligations.OvrAndHazAreSticky := by
  intro s t h
  obtain ⟨hovrRise, hovrFall⟩ := ovr_changes h
  obtain ⟨hhazRise, hhazFall⟩ := haz_changes h
  exact ⟨fun hb ⟨_, hw⟩ => ovr_of_cmd_write h hb hw, hovrRise, hovrFall,
    fun hb ⟨_, _, hp, hacc⟩ => haz_of_storage_access h hb hp hacc, hhazRise, hhazFall⟩

/-- Settles O43: ERR in each effect of a step. -/
theorem errHoldsTheLastOutcome : Obligations.ErrHoldsTheLastOutcome := by
  intro s t h
  have hrule : t.err = s.err ∨
      (SequencerRuns s ∧ t.busy = false ∧ t.err = outcomeCode (turnOutcome s)) ∨
      (s.busy = false ∧ (∃ v, HostWrites s .cmd v) ∧ t.err = 0#8) ∨ (ResetNext s ∧ t.err = 0#8) := by
    cases StepEffect.of_step h with
    | turn hrun hturn =>
      rcases turn_waits_or_completes hrun hturn with rfl | ⟨hbusy, -, herr⟩
      · exact .inl rfl
      · exact .inr (.inl ⟨hrun, hbusy, herr⟩)
    | accepts hidle hw => exact .inr (.inr (.inl ⟨hidle, ⟨_, hw⟩, rfl⟩))
    | resets hr => exact .inr (.inr (.inr ⟨hr, rfl⟩))
    | _ => exact .inl (by simp)
  refine ⟨fun hb hw => (accepted_of_idle h hb hw).2.2, fun hrun ht => ?_, fun hne => ?_, ?_⟩
  · exact ⟨turnOutcome s, (completes_of_idle h hrun ht).2, turnOutcome_of_illegal, fun i => turnOutcome_of_decode⟩
  · rcases hrule with he | ⟨hrun, ht, -⟩ | ⟨hidle, hw, -⟩ | ⟨hr, -⟩
    · exact absurd he hne
    · exact .inl ⟨hrun, ht⟩
    · exact .inr (.inl ⟨hidle, hw⟩)
    · exact .inr (.inr hr)
  · rcases hrule with he | ⟨-, -, he⟩ | ⟨-, -, he⟩ | ⟨-, he⟩
    · exact .inl he
    · exact .inr (he ▸ outcomeCode_le _)
    · exact .inr (by simp [he])
    · exact .inr (by simp [he])

/-! ### The operand registers -/

/-- R14: the operand registers a turn of the sequencer changes. -/
theorem turn_register_changed {s t : State} {r : Reg} (hrun : SequencerRuns s) (hturn : sequencerTurn s.pop = .next t)
    (hr : readG t r ≠ readG s r) :
    (∃ i, SequencerRunsCommand s i ∧ destination i = some r ∧ t.err = 0#8) ∨
      ∃ mask : WipeMask, SequencerRunsCommand s (.wipe mask) ∧ mask.getLsbD 3 = true := by
  rcases commandEnd_of_sequencerTurn (s := s.pop) hrun.1 hturn with ⟨-, rfl⟩ | ⟨i, hd, hend⟩
  · exact absurd rfl hr
  · rcases hend.register_changed hr with ⟨hdest, herr⟩ | ⟨mask, rfl, hm⟩
    · exact .inl ⟨i, ⟨hrun, hd⟩, hdest, herr⟩
    · exact .inr ⟨mask, ⟨hrun, hd⟩, hm⟩

/-- Settles O51: G[r] in each effect of a step. -/
theorem registersChangeOnlyByRule : Obligations.RegistersChangeOnlyByRule := by
  intro s t r h hr
  cases StepEffect.of_step h with
  | turn hrun hturn => exact (turn_register_changed hrun hturn hr).imp_right .inl
  | @stores p v hp hidle hw =>
    rw [readG_respond, readG_storeAt] at hr ⊢
    by_cases hpr : p = .g r
    · exact .inr (.inr (.inl ⟨hidle, v, hpr ▸ hw, if_pos hpr⟩))
    · exact absurd (if_neg hpr) hr
  | resets hreset => exact .inr (.inr (.inr hreset))
  | _ => exact absurd rfl hr

/-! ### CTRL and reset -/

/-- Settles O44: a CTRL write, with SRST and without. -/
theorem ctrlWriteResetsOrSetsIe : Obligations.CtrlWriteResetsOrSetsIe := by
  intro s v rest hin
  have hw : HostWrites s .ctrl v := ⟨0x008#12, 4, by rw [hin]; rfl, by decide⟩
  have hpop : s.pop = { s with inputs := rest } := by rw [State.pop, hin]; rfl
  rw [step_of_hostWrites hw, placeWrite, ctrlWrite, hpop]
  refine ⟨fun hv => ⟨_, rfl, ?_, ?_⟩, fun hv => ?_⟩
  · rw [if_pos hv]; rfl
  · rw [if_pos hv]; rfl
  · rw [if_neg (Bool.eq_false_iff.mp hv)]; rfl

/-- Settles O46: the reset state, field by field. -/
theorem resetValues : Obligations.ResetValues :=
  ⟨readG_reset, fun _ => ⟨rfl, rfl, rfl⟩, rfl, rfl, rfl, rfl, rfl, rfl, rfl, rfl, rfl⟩

end Sys2Proof.Machine
end

section
/-! SUPPORT. The window map (R31 to R33): the legal accesses, the one offset of each place, and where the platform puts them. -/

namespace Sys2Proof.Machine

theorem toNat_ofNat_offset {n : Nat} (h : n < 4096) : (BitVec.ofNat 12 n).toNat = n := by
  rw [BitVec.toNat_ofNat, Nat.mod_eq_of_lt (by simpa using h)]

/-- R33: each row of the window map, read from the place to its offset. -/
theorem mapped_toNat_offset (p : Place) : mapped p.offset.toNat = some p := by
  cases p with
  | cmd | status | ctrl | id => rfl
  | g i | c i | x i | y i =>
    rw [Place.offset, toNat_ofNat_offset (by omega), mapped]
    simp (disch := omega) [if_neg, if_pos, elementIndex]

theorem toNat_offset_mod_four (p : Place) : p.offset.toNat % 4 = 0 := by
  cases p with
  | cmd | status | ctrl | id => rfl
  | g i | c i | x i | y i =>
    rw [Place.offset, toNat_ofNat_offset (by omega)]
    omega

theorem place_offset (p : Place) : place p.offset 4 = some p := by
  rw [place, if_pos ⟨rfl, toNat_offset_mod_four p⟩, mapped_toNat_offset]

/-- R32: the mapped offsets. -/
theorem isSome_mapped_iff {n : Nat} (h4 : n % 4 = 0) :
    (mapped n).isSome = true ↔ n < 0x010 ∨ (0x040 ≤ n ∧ n < 0x080) ∨ 0x400 ≤ n := by
  unfold mapped
  split_ifs <;> simp <;> omega

/-- R33: the window map is one to one: row by row, an aligned offset is the offset of what it names. -/
theorem toNat_offset_of_mapped {n : Nat} {p : Place} (h4 : n % 4 = 0) (hn : n < 4096) (h : mapped n = some p) :
    p.offset.toNat = n := by
  unfold mapped at h
  split_ifs at h <;> cases h <;> simp [Place.offset, elementIndex] <;> omega

/-- R33: each place is at its own offset and at no other. -/
theorem place_eq_some_iff {off : Offset} {p : Place} : place off 4 = some p ↔ off = p.offset := by
  refine ⟨fun h => ?_, fun h => h ▸ place_offset p⟩
  unfold place at h
  split at h
  · rename_i hlegal
    exact BitVec.eq_of_toNat_eq (toNat_offset_of_mapped hlegal.2 off.isLt h).symm
  · cases h

/-- R32: the legal accesses. -/
theorem isSome_place_iff {off : Offset} {width : Nat} :
    (place off width).isSome = true ↔
      width = 4 ∧ off.toNat % 4 = 0 ∧
        (off.toNat < 0x010 ∨ (0x040 ≤ off.toNat ∧ off.toNat < 0x080) ∨ 0x400 ≤ off.toNat) := by
  unfold place
  split
  · rename_i hlegal
    rw [isSome_mapped_iff hlegal.2]
    exact ⟨fun h => ⟨hlegal.1, hlegal.2, h⟩, fun h => h.2.2⟩
  · rename_i hillegal
    exact ⟨fun h => (by cases h), fun h => absurd ⟨h.1, h.2.1⟩ hillegal⟩

theorem platformOffset_windowBase_add (p : Platform) (off : Offset) :
    platformOffset p (p.windowBase + off.toNat) = some off := by
  have := off.isLt
  rw [platformOffset, if_pos (by omega), Nat.add_sub_cancel_left, BitVec.ofNat_toNat, BitVec.setWidth_eq]

theorem platformOffset_outside {p : Platform} {addr : Nat} (h : addr < p.windowBase ∨ p.windowBase + 4096 ≤ addr) :
    platformOffset p addr = none := if_neg (by omega)

end Sys2Proof.Machine
end

section
/-! SUPPORT. Legal host accesses: what a read and a write of operand storage do (R34, R36, R37, R39), the values on the bus, and
what a write done twice does (R43). -/

namespace Sys2Proof.Machine

/-! ### Accesses to operand storage, while a command runs and while idle -/

section
variable {s : State} {off : Offset} {width : Nat} {p : Place}

/-- R39: a read of an element while a command runs. -/
theorem memRead_busy (h : place off width = some p) (hp : p.isStorage = true) (hb : s.busy = true) :
    memRead off width s = ({ s with haz := true }, .data 0#32) := by
  rw [memRead_storage h hp, storageRead, if_pos hb]

/-- R36: a read of an element while idle. -/
theorem memRead_idle (h : place off width = some p) (hp : p.isStorage = true) (hb : s.busy = false) :
    memRead off width s = (s, .data ((storedAt s p).zeroExtend 32)) := by
  rw [memRead_storage h hp, storageRead, if_neg (Bool.eq_false_iff.mp hb)]

/-- R39: a write of an element while a command runs. -/
theorem memWrite_busy (h : place off width = some p) (hp : p.isStorage = true) (hb : s.busy = true) (v : Word) :
    memWrite off width v s = ({ s with haz := true }, .ack) := by
  rw [memWrite_storage h hp, storageWrite, if_pos hb]

/-- R37: a write of an element while idle. -/
theorem memWrite_idle (h : place off width = some p) (hp : p.isStorage = true) (hb : s.busy = false) (v : Word) :
    memWrite off width v s = (storeAt p v s, .ack) := by
  rw [memWrite_storage h hp, storageWrite, if_neg (Bool.eq_false_iff.mp hb)]

end

/-- A host write of an element leaves everything but operand storage. -/
theorem storageOf_storeAt (p : Place) (v : Word) (s : State) : StorageOf s (storeAt p v s) := by cases p <;> rfl

@[simp] theorem storeAt_draws (p : Place) (v : Word) (s : State) : (storeAt p v s).draws = s.draws := by cases p <;> rfl

/-! ### Values on the bus -/

theorem flagWord_shiftLeft (b : Bool) (k : Nat) : flagWord b <<< k = if b then 1#32 <<< k else 0#32 := by
  cases b <;> simp [flagWord]

/-- R36: the STATUS word, field by field. -/
theorem statusWord_eq (s : State) :
    statusWord s =
      (s.err.zeroExtend 32 <<< 8) ||| (if s.haz then 8#32 else 0#32) ||| (if s.ovr then 4#32 else 0#32) |||
          (if s.done then 2#32 else 0#32) ||| (if s.busy then 1#32 else 0#32) := by
  rw [statusWord, flagWord_shiftLeft, flagWord_shiftLeft, flagWord_shiftLeft, flagWord]
  rfl

/-- R34: an element word reads as bits [7:0] of the written value. -/
theorem zeroExtend_extractLsb' (v : Word) : (v.extractLsb' 0 8).zeroExtend 32 = v &&& 0xFF#32 := by
  have hlow : v.toNat &&& 255 = v.toNat % 256 := Nat.and_two_pow_sub_one_eq_mod v.toNat 8
  apply BitVec.eq_of_toNat_eq
  rw [BitVec.toNat_and, show (0xFF#32).toNat = 255 from rfl, hlow]
  rw [BitVec.zeroExtend, BitVec.toNat_setWidth, BitVec.extractLsb'_toNat, Nat.shiftRight_zero]
  omega

/-- R37: a W1C bit. -/
theorem and_not_eq_ite (b c : Bool) : (b && !c) = if c then false else b := by cases c <;> simp

/-! ### A write done twice (R43) -/

theorem banksWf_iff {s : State} : banksWf s = true ↔ s.C.wf = true ∧ s.X.wf = true ∧ s.Y.wf = true := by
  simp [banksWf, and_assoc]

theorem Memory.write_write {m : Memory} (h : m.wf = true) {i : Nat} (hi : i < 256) (v : Byte) :
    (m.write i v).write i v = m.write i v := by
  have hw := Memory.wf_write h hi v
  refine Memory.ext_of_wf (Memory.wf_write hw hi v) hw fun a => ?_
  rw [Memory.read_write_of_wf hw, Memory.read_write_of_wf h]
  split <;> rfl

theorem writeG_writeG (s : State) (r : Reg) (b : Byte) : writeG (writeG s r b) r b = writeG s r b := by
  simp [writeG]

theorem storeAt_storeAt {s : State} (h : banksWf s = true) (p : Place) (v : Word) :
    storeAt p v (storeAt p v s) = storeAt p v s := by
  obtain ⟨hC, hX, hY⟩ := banksWf_iff.mp h
  cases p with
  | cmd | status | ctrl | id => rfl
  | g i => exact writeG_writeG s i _
  | c i => simp only [storeAt, Memory.write_write hC i.isLt]
  | x i => simp only [storeAt, Memory.write_write hX i.isLt]
  | y i => simp only [storeAt, Memory.write_write hY i.isLt]

theorem storageWrite_storageWrite {s : State} (h : banksWf s = true) (p : Place) (v : Word) :
    storageWrite p v (storageWrite p v s) = storageWrite p v s := by
  cases hb : s.busy with
  | true => simp [storageWrite, hb]
  | false => simp [storageWrite, hb, storeAt_storeAt h]

theorem statusWrite_statusWrite (v : Word) (s : State) : statusWrite v (statusWrite v s) = statusWrite v s := by
  simp [statusWrite]

theorem ctrlWrite_ie {v : Word} (hv : v.getLsbD 1 = false) (s : State) :
    ctrlWrite v s = { s with ie := v.getLsbD 0 } := if_neg (Bool.eq_false_iff.mp hv)

/-- R43: a legal write but one to CMD, or to CTRL with bit 1 = 1, is idempotent. -/
theorem placeWrite_placeWrite {s : State} (h : banksWf s = true) {p : Place} {v : Word} (hcmd : p ≠ .cmd)
    (hreset : ¬ (p = .ctrl ∧ v.getLsbD 1 = true)) : placeWrite p v (placeWrite p v s) = placeWrite p v s := by
  rcases p.storage_or_register with hp | rfl | rfl | rfl | rfl
  · simp only [placeWrite_storage hp, storageWrite_storageWrite h]
  · exact absurd rfl hcmd
  · exact statusWrite_statusWrite v s
  · have hv : v.getLsbD 1 = false := Bool.eq_false_iff.mpr fun h1 => hreset ⟨rfl, h1⟩
    simp only [placeWrite, ctrlWrite_ie hv]
  · rfl

end Sys2Proof.Machine
end

section
/-! SUPPORT. Who can change an element of operand storage (R35). -/

namespace Sys2Proof.Machine

theorem storedAt_congr {s t : State} (hG : t.G = s.G) (hC : t.C = s.C) (hX : t.X = s.X) (hY : t.Y = s.Y) (q : Place) :
    storedAt t q = storedAt s q := by
  cases q <;> simp [storedAt, readG, hG, hC, hX, hY]

theorem selected_of_wipeBank_changed {sel : Bool} {m : Memory} {a : Nat} (h : (wipeBank sel m).read a ≠ m.read a) :
    sel = true := by
  cases sel with
  | true => rfl
  | false => exact absurd rfl h

/-- R35: what a command leaves in the banks. Only PICK and WIPE write one, and PICK keeps C, Y and X[255]. -/
theorem CommandEnd.banks {s t : State} {i : Instr} (hX : s.X.wf = true) (h : CommandEnd s i t) :
    SameBanks s t ∨
      (∃ rs1, i = .pick rs1 ∧ t.C = s.C ∧ t.Y = s.Y ∧ ∀ a, 255 ≤ a → t.X.read a = s.X.read a) ∨
      ∃ mask, i = .wipe mask ∧ t.C = wipeBank (maskC mask) s.C ∧ t.X = wipeBank (maskX mask) s.X ∧
        t.Y = wipeBank (maskY mask) s.Y := by
  cases h with
  | waits | fails | writes | nop => exact .inl fun _ => ⟨rfl, rfl, rfl⟩
  | @clearsCoordinates rs1 =>
    refine .inr (.inl ⟨rs1, rfl, by rw [complete_C], by rw [complete_Y], fun a ha => ?_⟩)
    rw [complete_X, (clearedCoordinates_spec hX).2, if_neg (Nat.not_lt.mpr ha)]
  | @selects rs1 x rest _ hx => exact .inr (.inl ⟨rs1, rfl, rfl, rfl, (pickResult_selected hX hx).2⟩)
  | wipes mask => exact .inr (.inr ⟨mask, rfl, rfl, rfl, rfl⟩)

/-- R35: an element changes by the end of a command, by a host write of it while idle, or by a reset. -/
theorem element_changed {s t : State} {q : Place} (hwf : banksWf s = true) (hq : q.isStorage = true)
    (h : step s = .next t) (hne : storedAt t q ≠ storedAt s q) :
    (∃ i, SequencerRunsCommand s i ∧ CommandEnd s.pop i t) ∨ (s.busy = false ∧ ∃ v, HostWrites s q v) ∨ ResetNext s := by
  cases StepEffect.of_step h with
  | turn hrun hturn =>
    rcases commandEnd_of_sequencerTurn (s := s.pop) hrun.1 hturn with ⟨-, rfl⟩ | ⟨i, hd, hend⟩
    · exact absurd (storedAt_congr rfl rfl rfl rfl q) hne
    · exact .inl ⟨i, ⟨hrun, hd⟩, hend⟩
  | @stores p v hp hidle hw =>
    by_cases hqp : q = p
    · exact .inr (.inl ⟨hidle, v, hqp ▸ hw⟩)
    · refine absurd ?_ hne
      calc storedAt (respond (storeAt p v s.pop, .ack)) q = storedAt (storeAt p v s.pop) q :=
            storedAt_congr rfl rfl rfl rfl q
        _ = storedAt s.pop q := by rw [storedAt_storeAt (s := s.pop) hwf hp hq, if_neg hqp]
        _ = storedAt s q := storedAt_congr rfl rfl rfl rfl q
  | resets hr => exact .inr (.inr hr)
  | _ => exact absurd (storedAt_congr rfl rfl rfl rfl q) hne

/-- R35: the commands that change an element of C. -/
theorem CommandEnd.C_changed {s t : State} {i : Instr} {a : Nat} (hX : s.X.wf = true) (h : CommandEnd s i t)
    (ha : t.C.read a ≠ s.C.read a) : ∃ mask, i = .wipe mask ∧ mask.getLsbD 0 = true := by
  rcases h.banks hX with hsame | ⟨rs1, -, hC, -⟩ | ⟨mask, hi, hC, -⟩
  · exact absurd (hsame a).1 ha
  · exact absurd (by rw [hC]) ha
  · exact ⟨mask, hi, selected_of_wipeBank_changed (hC ▸ ha)⟩

/-- R35: the commands that change an element of X; PICK keeps X[255]. -/
theorem CommandEnd.X_changed {s t : State} {i : Instr} {a : Nat} (hX : s.X.wf = true) (h : CommandEnd s i t)
    (ha : t.X.read a ≠ s.X.read a) :
    (∃ rs1, i = .pick rs1 ∧ a < 255) ∨ ∃ mask, i = .wipe mask ∧ mask.getLsbD 1 = true := by
  rcases h.banks hX with hsame | ⟨rs1, hi, -, -, hkeep⟩ | ⟨mask, hi, -, hwipe, -⟩
  · exact absurd (hsame a).2.1 ha
  · exact .inl ⟨rs1, hi, Nat.lt_of_not_le fun hle => ha (hkeep a hle)⟩
  · exact .inr ⟨mask, hi, selected_of_wipeBank_changed (hwipe ▸ ha)⟩

/-- R35: the commands that change an element of Y. -/
theorem CommandEnd.Y_changed {s t : State} {i : Instr} {a : Nat} (hX : s.X.wf = true) (h : CommandEnd s i t)
    (ha : t.Y.read a ≠ s.Y.read a) : ∃ mask, i = .wipe mask ∧ mask.getLsbD 2 = true := by
  rcases h.banks hX with hsame | ⟨rs1, -, -, hY, -⟩ | ⟨mask, hi, -, -, hY⟩
  · exact absurd (hsame a).2.2 ha
  · exact absurd (by rw [hY]) ha
  · exact ⟨mask, hi, selected_of_wipeBank_changed (hY ▸ ha)⟩

end Sys2Proof.Machine
end

section
/-! SUPPORT. The polynomial commands read no element at or beyond their length (R35, R69, R71). -/

namespace Sys2Proof.Machine

/-- The two banks agree below `k`. -/
def AgreeBelow (k : Nat) (m m' : Memory) : Prop := ∀ a, a < k → m'.read a = m.read a

theorem foldlM_congr {α β : Type} {f g : β → α → Option β} {l : List α} (h : ∀ x ∈ l, ∀ b, f b x = g b x) (b : β) :
    l.foldlM f b = l.foldlM g b := by
  induction l generalizing b with
  | nil => rfl
  | cons x xs ih =>
    simp only [List.foldlM_cons, h x List.mem_cons_self, ih fun y hy => h y (List.mem_cons_of_mem x hy)]

theorem horner_congr {c c' : Memory} {k : Nat} (hk : 0 < k) (h : AgreeBelow k c c') (x : Byte) :
    horner c' k x = horner c k x := by
  rw [horner, horner, h (k - 1) (by omega)]
  refine List.foldr_ext _ _ _ fun i hi acc => ?_
  have hlt := List.mem_range.mp hi
  rw [h i (by omega)]

theorem evalAt_congr {c c' : Memory} {k : Nat} (hk : 0 < k) (h : AgreeBelow k c c') (x : Byte) :
    evalAt c' k x = evalAt c k x := by
  rw [evalAt, evalAt, h 0 hk, horner_congr hk h]

theorem hasDuplicate_eq_true_iff {xs : Memory} {k : Nat} :
    hasDuplicate xs k = true ↔ ∃ i < k, ∃ j < k, i < j ∧ xs.read i = xs.read j := by
  simp [hasDuplicate]

theorem hasDuplicate_congr {xs xs' : Memory} {k : Nat} (h : AgreeBelow k xs xs') :
    hasDuplicate xs' k = hasDuplicate xs k := by
  rw [Bool.eq_iff_iff, hasDuplicate_eq_true_iff, hasDuplicate_eq_true_iff]
  refine exists_congr fun i => and_congr_right fun hi => exists_congr fun j => and_congr_right fun hj => ?_
  rw [h i hi, h j hj]

theorem lagrangeBasis_congr {xs xs' : Memory} {k : Nat} (h : AgreeBelow k xs xs') (z : Byte) {i : Nat} (hi : i < k) :
    lagrangeBasis xs' k z i = lagrangeBasis xs k z i :=
  foldlM_congr (fun j hj b => by rw [basisStep, basisStep, h i hi, h j (List.mem_range.mp hj)]) _

theorem interpolate_congr {xs xs' ys ys' : Memory} {k : Nat} (hx : AgreeBelow k xs xs') (hy : AgreeBelow k ys ys')
    (z : Byte) : interpolate xs' ys' k z = interpolate xs ys k z := by
  refine foldlM_congr (fun i hi acc => ?_) _
  rw [lagrangeBasis_congr hx z (List.mem_range.mp hi), hy i (List.mem_range.mp hi)]

/-! ### The ends of two commands -/

/-- The two outcomes leave the same value in G[rd] and the same code. -/
def SameResult (rd : Reg) (o o' : Host.Outcome State Fault Refusal) : Prop :=
  ∀ t t', o = .next t → o' = .next t' → readG t' rd = readG t rd ∧ t'.err = t.err

theorem sameResult_raise {s s' : State} (h : SameRegs s s') (rd : Reg) (e : ErrorKind) :
    SameResult rd (raise e s) (raise e s') := by
  intro t t' ht ht'
  cases ht
  cases ht'
  exact ⟨h rd, rfl⟩

theorem sameResult_succeedWith (s s' : State) (rd : Reg) (v : Byte) :
    SameResult rd (succeedWith rd v s) (succeedWith rd v s') := by
  intro t t' ht ht'
  cases ht
  cases ht'
  simp [readG_writeG]

theorem sameResult_succeedOrDivideByZero {s s' : State} (h : SameRegs s s') (rd : Reg) (v : Option Byte) :
    SameResult rd (succeedOrDivideByZero rd v s) (succeedOrDivideByZero rd v s') := by
  cases v with
  | none => exact sameResult_raise h rd _
  | some q => exact sameResult_succeedWith s s' rd q

theorem countOf_congr {s s' : State} (h : SameRegs s s') (r : Reg) : countOf s' r = countOf s r := by
  rw [countOf_eq, countOf_eq, h r]

/-- R35, R69: EVAL reads its registers and C[0..k-1] only. -/
theorem sameResult_eval {rd rs1 rs2 : Reg} {s s' : State} (hG : SameRegs s s') (hC : AgreeBelow (countOf s rs2) s.C s'.C) :
    SameResult rd (execEval rd rs1 rs2 s) (execEval rd rs1 rs2 s') := by
  rw [execEval, execEval, countOf_congr hG, hG rs1]
  split
  · exact sameResult_raise hG rd _
  · rename_i hk
    rw [evalAt_congr (Nat.pos_of_ne_zero hk) hC]
    exact sameResult_succeedWith s s' rd _

/-- R35, R71: INTERP reads its registers, X[0..k-1] and Y[0..k-1] only. -/
theorem sameResult_interp {rd rs1 rs2 rs3 : Reg} {s s' : State} (hG : SameRegs s s')
    (hX : AgreeBelow (countOf s rs2) s.X s'.X) (hY : AgreeBelow (countOf s rs2) s.Y s'.Y) :
    SameResult rd (execInterp rd rs1 rs2 rs3 s) (execInterp rd rs1 rs2 rs3 s') := by
  rw [execInterp, execInterp, countOf_congr hG, countOf_congr hG, hG rs1, hasDuplicate_congr hX, interpolate_congr hX hY]
  split
  · exact sameResult_raise hG rd _
  · split
    · exact sameResult_raise hG rd _
    · split
      · exact sameResult_raise hG rd _
      · exact sameResult_succeedOrDivideByZero hG rd _

end Sys2Proof.Machine
end

section
/-! SUPPORT. Two running states that differ in operand storage and entropy answers only stay so, whatever event but the
sequencer's turn comes, and show the host the same (R39, R42). -/

namespace Sys2Proof.Machine

/-- States that agree on control differ in operand storage and entropy answers only. -/
theorem SameControl.exists_eq {s s' : State} (h : SameControl s s') :
    ∃ G C X Y draws, s' = { s with G := G, C := C, X := X, Y := Y, draws := draws } := by
  obtain ⟨hcmd, hbusy, hdone, hovr, hhaz, herr, hie, hinputs, hresponse⟩ := h
  exact ⟨s'.G, s'.C, s'.X, s'.Y, s'.draws, by cases s'; simp_all⟩

theorem sameControl_setInputs {s s' : State} (h : SameControl s s') (rest : List Input) :
    SameControl { s with inputs := rest } { s' with inputs := rest } := by
  obtain ⟨_, _, _, _, _, rfl⟩ := h.exists_eq
  simp [SameControl]

theorem sameControl_respond {p p' : State × Response} (h : SameControl p.1 p'.1) (ha : p.2 = p'.2) :
    SameControl (respond p) (respond p') := by
  obtain ⟨hcmd, hbusy, hdone, hovr, hhaz, herr, hie, hinputs, -⟩ := h
  exact ⟨hcmd, hbusy, hdone, hovr, hhaz, herr, hie, hinputs, congrArg some ha⟩

theorem sameControl_resetCore {s s' : State} (h : SameControl s s') : SameControl (resetCore s) (resetCore s') := by
  obtain ⟨_, _, _, _, _, rfl⟩ := h.exists_eq
  simp [SameControl]

theorem sameControl_placeWrite {s s' : State} (h : SameControl s s') (hb : s.busy = true) (p : Place) (v : Word) :
    SameControl (placeWrite p v s) (placeWrite p v s') := by
  have hreset := sameControl_resetCore h
  obtain ⟨_, _, _, _, _, rfl⟩ := h.exists_eq
  rcases p.storage_or_register with hp | rfl | rfl | rfl | rfl
  · simp [placeWrite_storage hp, storageWrite, hb, SameControl]
  · simp [placeWrite, cmdWrite, hb, SameControl]
  · simp [placeWrite, SameControl]
  · simp only [placeWrite, ctrlWrite]
    split
    · exact hreset
    · simp [SameControl]
  · exact h

theorem sameControl_placeRead {s s' : State} (h : SameControl s s') (p : Place) :
    SameControl (placeRead p s) (placeRead p s') := by
  obtain ⟨_, _, _, _, _, rfl⟩ := h.exists_eq
  simp only [placeRead]
  split
  · simp [SameControl]
  · exact h

/-- R39: while a command runs, the answer to a legal read does not depend on operand storage. -/
theorem memRead_response_congr {s s' : State} (h : SameControl s s') (hb : s.busy = true) {off : Offset} {width : Nat}
    {p : Place} (hplace : place off width = some p) : (memRead off width s).2 = (memRead off width s').2 := by
  obtain ⟨_, _, _, _, _, rfl⟩ := h.exists_eq
  rcases p.storage_or_register with hp | rfl | rfl | rfl | rfl
  · simp [memRead_storage hplace hp, storageRead, hb]
  all_goals simp [memRead, hplace, statusWord, ctrlWord]

theorem sameControl_read {s s' : State} (h : SameControl s s') (hb : s.busy = true) (off : Offset) (width : Nat) :
    SameControl (respond (memRead off width s)) (respond (memRead off width s')) := by
  cases hplace : place off width with
  | none => rw [memRead_illegal hplace, memRead_illegal hplace]; exact sameControl_respond h rfl
  | some p =>
    refine sameControl_respond ?_ (memRead_response_congr h hb hplace)
    rw [memRead_legal hplace, memRead_legal hplace]
    exact sameControl_placeRead h p

theorem sameControl_write {s s' : State} (h : SameControl s s') (hb : s.busy = true) (off : Offset) (width : Nat)
    (v : Word) : SameControl (respond (memWrite off width v s)) (respond (memWrite off width v s')) := by
  cases hplace : place off width with
  | none => rw [memWrite_illegal hplace, memWrite_illegal hplace]; exact sameControl_respond h rfl
  | some p =>
    rw [memWrite_legal hplace, memWrite_legal hplace]
    exact sameControl_respond (sameControl_placeWrite h hb p v) rfl

/-- R92: an entropy answer reaches the entropy answers only. -/
theorem sameControl_entropyAnswer {s s' : State} (h : SameControl s s') (d : Draw) :
    SameControl (entropyAnswer d s) (entropyAnswer d s') := by
  unfold entropyAnswer
  split <;> split <;> exact h

theorem sameControl_event {s s' t t' : State} {e : Input} (h : SameControl s s') (hb : s.busy = true)
    (he : e ≠ .sequencer) (ht : event e s = .next t) (ht' : event e s' = .next t') : SameControl t t' := by
  cases e with
  | read off width => cases ht; cases ht'; exact sameControl_read h hb off width
  | write off width v => cases ht; cases ht'; exact sameControl_write h hb off width v
  | entropy d => cases ht; cases ht'; exact sameControl_entropyAnswer h d
  | reset => cases ht; cases ht'; exact sameControl_resetCore h
  | sequencer => exact absurd rfl he

end Sys2Proof.Machine
end

section
/-! PROOF. The window, host accesses and operand storage (spec/20_memory.md). -/

namespace Sys2Proof.Machine

/-- Settles O57: the offset of an address inside the window, and of one outside it. -/
theorem windowBaseIsFree : Obligations.WindowBaseIsFree := by
  intro p off addr width v s
  refine ⟨?_, ?_, fun h => ⟨?_, ?_⟩⟩
  · rw [platformRead, platformOffset_windowBase_add]
  · rw [platformWrite, platformOffset_windowBase_add]
  · rw [platformRead, platformOffset_outside h]
  · rw [platformWrite, platformOffset_outside h]

/-- Settles O31: the legal accesses, and the answer to any other. -/
theorem illegalAccessesGetABusError : Obligations.IllegalAccessesGetABusError := by
  refine ⟨fun _ _ => isSome_place_iff, fun s off width v rest hplace => ⟨fun hin => ?_, fun hin => ?_⟩⟩
  · rw [step_cons hin, event, memRead_illegal hplace]; rfl
  · rw [step_cons hin, event, memWrite_illegal hplace]; rfl

/-- Settles O32: each row is `place_offset`, and the last clause is its converse. -/
theorem windowMapIsExact : Obligations.WindowMapIsExact :=
  ⟨fun i => place_offset (.g i), fun i => ⟨place_offset (.c i), place_offset (.x i), place_offset (.y i)⟩,
    place_offset .cmd, place_offset .status, place_offset .ctrl, place_offset .id,
    fun _ _ h => (place_eq_some_iff.mp h).symm⟩

/-- Settles O33, place by place. -/
theorem hostReadReturnsTheRuleValue : Obligations.HostReadReturnsTheRuleValue := by
  intro s off
  refine ⟨fun width h => memRead_illegal h s, fun h => ?_, fun h => ?_, fun h => ?_, fun h => ?_, fun p h hp => ?_⟩
  · simp [memRead, h]
  · simp [memRead, h, statusWord_eq]
  · simp [memRead, h, ctrlWord, flagWord]
  · simp [memRead, h, idWord]
  · rw [memRead_storage h hp, storageRead]

/-- Settles O34, place by place. -/
theorem hostWriteHasTheRuleEffect : Obligations.HostWriteHasTheRuleEffect := by
  intro s off v hwf
  refine ⟨fun width h => memWrite_illegal h v s, fun h => memWrite_legal h v s, fun h => ?_, fun h => memWrite_legal h v s,
    fun h => memWrite_legal h v s, fun p h hp hb => ?_, fun p h hp hb => ?_⟩
  · refine ⟨statusWrite v s, memWrite_legal h v s, ?_, ?_, ?_, rfl, rfl, rfl, rfl, rfl, WritesNothing.refl s⟩
    · exact and_not_eq_ite s.done (v.getLsbD 1)
    · exact and_not_eq_ite s.ovr (v.getLsbD 2)
    · exact and_not_eq_ite s.haz (v.getLsbD 3)
  · exact memWrite_busy h hp hb v
  · refine ⟨storeAt p v s, memWrite_idle h hp hb v, ?_, fun q hq hqp => ?_, ?_⟩
    · rw [storedAt_storeAt hwf hp hp, if_pos rfl]
    · rw [storedAt_storeAt hwf hp hq, if_neg hqp]
    · simp [hb, (storageOf_storeAt p v s).sameRest]

/-- Settles O35: the element read is the element written, and its word is the low byte of `v`. -/
theorem elementWordsReadBack : Obligations.ElementWordsReadBack := by
  intro s p off v hwf hb h hp
  refine ⟨storeAt p v s, memWrite_idle h hp hb v, ?_, fun q hq hqp => ?_⟩
  · have hb' : (storeAt p v s).busy = false := (storeAt_busy p v s).trans hb
    rw [memRead_idle h hp hb', storedAt_storeAt hwf hp hp, if_pos rfl, zeroExtend_extractLsb']
  · rw [storedAt_storeAt hwf hp hq, if_neg hqp]

/-- Settles O36: a CMD write while idle, and while busy. -/
theorem cmdWriteIsAcceptedOrDropped : Obligations.CmdWriteIsAcceptedOrDropped := by
  intro s v rest hin
  have hplace : place 0x000#12 4 = some .cmd := place_offset .cmd
  rw [step_cons hin, event, memWrite_legal hplace]
  refine ⟨fun hb => ?_, fun hb => ?_⟩
  · simp [placeWrite, cmdWrite, hb, respond, accept]
  · simp [placeWrite, cmdWrite, hb, respond]

/-- Settles O37: a read and a write of an element while busy. -/
theorem busyStorageAccessIsRefused : Obligations.BusyStorageAccessIsRefused := by
  intro s off p v rest hb h hp
  refine ⟨fun hin => ?_, fun hin => ?_⟩
  · rw [step_cons hin, event, memRead_busy (s := { s with inputs := rest }) h hp hb, respond]
  · rw [step_cons hin, event, memWrite_busy (s := { s with inputs := rest }) h hp hb, respond]

/-- Settles O38: what a read changes, and `placeWrite_placeWrite`. -/
theorem sideEffectsOfAccesses : Obligations.SideEffectsOfAccesses := by
  intro s off p v hwf h
  simp only [memRead_legal h, memWrite_legal h, placeRead]
  refine ⟨fun hsafe => ?_, fun hp hb => ?_, fun hcmd hreset => placeWrite_placeWrite hwf hcmd hreset⟩
  · rcases hsafe with hp | hb
    · simp [hp]
    · simp [hb]
  · simp [hp, hb]

/-- Settles O52: the changes of an element, and for each bank the commands among them. -/
theorem bankElementsChangeOnlyByRule : Obligations.BankElementsChangeOnlyByRule := by
  intro s t i hwf h
  obtain ⟨-, hX, -⟩ := banksWf_iff (s := s.pop).mp hwf
  refine ⟨fun hne => ?_, fun hne => ?_, fun hne => ?_⟩
  · refine (element_changed (q := .c i) hwf rfl h hne).imp_left fun ⟨_, hrun, hend⟩ => ?_
    obtain ⟨mask, rfl, hm⟩ := hend.C_changed hX hne
    exact ⟨mask, hrun, hm⟩
  · rcases element_changed (q := .x i) hwf rfl h hne with ⟨_, hrun, hend⟩ | hother
    · rcases hend.X_changed hX hne with ⟨rs1, rfl, hi⟩ | ⟨mask, rfl, hm⟩
      · exact .inl ⟨rs1, hrun, hi⟩
      · exact .inr (.inl ⟨mask, hrun, hm⟩)
    · exact .inr (.inr hother)
  · refine (element_changed (q := .y i) hwf rfl h hne).imp_left fun ⟨_, hrun, hend⟩ => ?_
    obtain ⟨mask, rfl, hm⟩ := hend.Y_changed hX hne
    exact ⟨mask, hrun, hm⟩

/-- Settles O53, for EVAL and INTERP. -/
theorem polynomialCommandsReadOnlyTheirElements : Obligations.PolynomialCommandsReadOnlyTheirElements :=
  ⟨fun _ _ _ _ _ t t' hG hC => sameResult_eval hG hC t t',
    fun _ _ _ _ _ _ t t' hG hXY =>
      sameResult_interp hG (fun a ha => (hXY a ha).1) (fun a ha => (hXY a ha).2) t t'⟩

/-- Settles O54: the next event taken from both states. -/
theorem runningCommandHidesStorage : Obligations.RunningCommandHidesStorage := by
  intro s s' t t' h hb hsome hnotSeq ht ht'
  cases hin : s.inputs with
  | nil => exact absurd hin hsome
  | cons e rest =>
    have hin' : s'.inputs = e :: rest := by
      obtain ⟨_, _, _, _, _, rfl⟩ := h.exists_eq
      exact hin
    rw [step_cons hin] at ht
    rw [step_cons hin'] at ht'
    exact sameControl_event (sameControl_setInputs h rest) hb (by simpa [hin] using hnotSeq) ht ht'

end Sys2Proof.Machine
end

section
/-! SUPPORT. Decoding in terms of the fields of the word (R50): a word decodes exactly when its fields are well-formed, and it is of
a row of the opcode map exactly when it has the row's OP and well-formed fields. -/

namespace Sys2Proof

/-- The OP values of the opcode map (R52). -/
def assignedOps : List (BitVec 8) := [0x00#8, 0x01#8, 0x02#8, 0x03#8, 0x04#8, 0x10#8, 0x11#8, 0x20#8, 0x30#8]

theorem opAssigned_iff (f : Fields) : f.opAssigned = true ↔ f.op ∈ assignedOps := by
  unfold Fields.opAssigned usedFields assignedOps
  split_ifs <;> simp_all

theorem wellFormed_iff (f : Fields) : f.wellFormed = true ↔ f.op ∈ assignedOps ∧ f.rsv = 0#8 ∧ f.unusedZero = true := by
  simp [Fields.wellFormed, opAssigned_iff, Fields.rsvZero, and_assoc]

/-- R53, R54: the rule's decoding order accepts exactly the well-formed fields. -/
theorem isSome_decodeFields (f : Fields) : (decodeFields f).isSome = f.wellFormed := by
  obtain ⟨op, rd, rs1, rs2, rs3, rsv⟩ := f
  rw [Bool.eq_iff_iff, wellFormed_iff]
  by_cases hrsv : rsv = 0#8
  · by_cases hop : op ∈ assignedOps
    · simp only [assignedOps, List.mem_cons, List.not_mem_nil, or_false] at hop
      rcases hop with rfl | rfl | rfl | rfl | rfl | rfl | rfl | rfl | rfl <;>
        simp [decodeFields, assignedOps, Fields.unusedZero, usedFields, hrsv, and_assoc]
    · simp_all [decodeFields, assignedOps]
  · simp [decodeFields, hrsv]

theorem isSome_decode (w : Word) : (decode w).isSome = (wordFields w).wellFormed := isSome_decodeFields _

theorem decode_eq_none_iff (w : Word) : decode w = none ↔ (wordFields w).wellFormed = false := by
  rw [← isSome_decode, Option.isSome_eq_false_iff, Option.isNone_iff_eq_none]

/-- A decoded command has the word's fields. -/
theorem fields_of_decode {w : Word} {i : Instr} (h : decode w = some i) : i.fields = wordFields w := fields_of_decodeFields h

/-! ### The match and mask columns -/

/-- The fields of a word make up the word: no bit lies outside them (R50). -/
theorem wordFields_injective : Function.Injective wordFields := by
  intro w w' h
  simp only [wordFields, Fields.mk.injEq, ← BitVec.toNat_inj, BitVec.extractLsb'_toNat, Nat.shiftRight_eq_div_pow] at h
  exact BitVec.eq_of_toNat_eq (by omega)

/-- The bits of every field that a mask keeps. -/
def Fields.masked (f m : Fields) : Fields :=
  ⟨f.op &&& m.op, f.rd &&& m.rd, f.rs1 &&& m.rs1, f.rs2 &&& m.rs2, f.rs3 &&& m.rs3, f.rsv &&& m.rsv⟩

theorem wordFields_and (w m : Word) : wordFields (w &&& m) = (wordFields w).masked (wordFields m) := by
  simp [wordFields, Fields.masked, BitVec.extractLsb'_and]

/-- R53: `(w AND mask) = match`, field by field. -/
theorem matches_iff_masked (row : OpcodeRow) (w : Word) :
    row.matches w = true ↔ (wordFields w).masked (wordFields row.maskWord) = wordFields row.matchWord := by
  rw [OpcodeRow.matches, beq_iff_eq, ← wordFields_and, wordFields_injective.eq_iff]

/-- R52, R54: a word is of a row exactly when it has the row's OP and no field makes it illegal. -/
theorem matches_iff_op_wellFormed {row : OpcodeRow} (hrow : row ∈ opcodeRows) (w : Word) :
    row.matches w = true ↔ (wordFields w).op = (wordFields row.matchWord).op ∧ (wordFields w).wellFormed = true := by
  have byte_and : ∀ b : BitVec 8, b &&& 255#8 = b := fun _ => BitVec.and_allOnes
  have index_and : ∀ b : BitVec 4, b &&& 15#4 = b := fun _ => BitVec.and_allOnes
  rw [matches_iff_masked, wellFormed_iff]
  obtain ⟨op, rd, rs1, rs2, rs3, rsv⟩ := wordFields w
  simp only [opcodeRows, List.mem_cons, List.not_mem_nil, or_false] at hrow
  rcases hrow with rfl | rfl | rfl | rfl | rfl | rfl | rfl | rfl | rfl <;>
  · simp only [wordFields, Fields.masked, Fields.unusedZero, Fields.mk.injEq, BitVec.reduceExtractLsb',
      BitVec.extractLsb'_zero, BitVec.and_zero, byte_and, index_and, true_and, and_congr_right_iff]
    rintro rfl
    simp [assignedOps, usedFields, and_assoc, and_comm]

/-- Every command has its row in the map, with its OP (R52). -/
theorem exists_row (i : Instr) :
    ∃ row ∈ opcodeRows, row.mnemonic = i.mnemonic ∧ (wordFields row.matchWord).op = i.fields.op := by
  cases i <;> simp [opcodeRows, Instr.mnemonic, Instr.fields, wordFields]

/-- No two rows of the map have one OP. -/
theorem row_eq_of_op_eq : ∀ row ∈ opcodeRows, ∀ row' ∈ opcodeRows,
    (wordFields row.matchWord).op = (wordFields row'.matchWord).op → row = row' := by
  decide

/-- A decoded word is of the row of its command. -/
theorem exists_row_matches {w : Word} {i : Instr} (h : decode w = some i) :
    ∃ row ∈ opcodeRows, row.mnemonic = i.mnemonic ∧ row.matches w = true := by
  obtain ⟨row, hrow, hname, hop⟩ := exists_row i
  have hwf : (wordFields w).wellFormed = true := by rw [← isSome_decode, h]; rfl
  exact ⟨row, hrow, hname, (matches_iff_op_wellFormed hrow w).mpr ⟨by rw [hop, fields_of_decode h], hwf⟩⟩

end Sys2Proof
end

section
/-! SUPPORT. The sequencer's turn by the word in CMD, and the commands the pseudo-instructions expand to (R58). -/

namespace Sys2Proof.Machine

theorem sequencerTurn_of_decode {s : State} {i : Instr} (hb : s.busy = true) (h : decode s.cmd = some i) :
    sequencerTurn s = exec i s := by
  simp [sequencerTurn, hb, h]

theorem sequencerTurn_of_illegal {s : State} (hb : s.busy = true) (h : decode s.cmd = none) :
    sequencerTurn s = raise .illegalCommand s := by
  simp [sequencerTurn, hb, h]

theorem cmdWrite_idle {s : State} (hb : s.busy = false) (v : Word) : cmdWrite v s = accept v s := by simp [cmdWrite, hb]

/-- R56: only PICK's step can wait; every other command completes. -/
theorem exec_completes {i : Instr} (hi : ∀ rs1, i ≠ .pick rs1) (s : State) :
    ∃ t e, exec i s = .next t ∧ CompletedWith e s t := by
  rcases exec_cases i s with ⟨-, rs1, hpick, -⟩ | ⟨w, e, h, hstorage⟩
  · exact absurd hpick (hi rs1)
  · exact ⟨_, e, h, complete_completedWith e hstorage.sameRest⟩

theorem withFetchWord_eq (s : State) {w : Nat} (hw : w < 2 ^ 32) :
    s.withFetchWord 32 w = { accept (BitVec.ofNat 32 w) s with inputs := [] } := by
  rw [State.withFetchWord, Nat.mod_eq_of_lt hw, loadCommand]

theorem exec_add_eq (rd rs1 rs2 : Reg) (s : State) :
    exec (.add rd rs1 rs2) s = succeedWith rd (gfadd (readG s rs1) (readG s rs2)) s := rfl

theorem exec_mul_eq (rd rs1 rs2 : Reg) (s : State) :
    exec (.mul rd rs1 rs2) s = succeedWith rd (gfmul (readG s rs1) (readG s rs2)) s := rfl

/-- R78: a WIPE that selects everything leaves what a reset leaves in operand storage. -/
theorem exec_wipe_all (s : State) :
    exec (.wipe 15#4) s = succeed { s with C := [], X := [], Y := [], G := Vector.replicate 16 0#8 } := rfl

end Sys2Proof.Machine
end

section
/-! PROOF. Decoding, the sequencer's step and the pseudo-instructions (spec/30_encoding.md). -/

namespace Sys2Proof.Machine

/-- Settles O22: a row matches by its OP and the well-formedness of the fields, so the three clauses are facts about OPs. -/
theorem decodeMatchesTheOpcodeRows : Obligations.DecodeMatchesTheOpcodeRows := by
  intro w
  refine ⟨⟨fun hnone row hrow => ?_, fun hno => ?_⟩, fun i h => ⟨fields_of_decode h, exists_row_matches h⟩,
    fun row hrow row' hrow' hm hm' => ?_⟩
  · have hill := (decode_eq_none_iff w).mp hnone
    rw [← Bool.not_eq_true, matches_iff_op_wellFormed hrow, hill]
    simp
  · refine Option.eq_none_iff_forall_ne_some.mpr fun i h => ?_
    obtain ⟨row, hrow, -, hm⟩ := exists_row_matches h
    simp [hno row hrow] at hm
  · obtain ⟨hop, -⟩ := (matches_iff_op_wellFormed hrow w).mp hm
    obtain ⟨hop', -⟩ := (matches_iff_op_wellFormed hrow' w).mp hm'
    exact row_eq_of_op_eq row hrow row' hrow' (hop.symm.trans hop')

/-- Settles O25: the three cases are the negation of `wellFormed_iff`. -/
theorem illegalWordsRaiseIllegalCommand : Obligations.IllegalWordsRaiseIllegalCommand := by
  intro w
  refine ⟨?_, decode_eq_none_iff w, fun s hb => ?_, fun s hill hcmd hb => ?_⟩
  · rw [decode_eq_none_iff, ← Bool.not_eq_true, wellFormed_iff, not_and_or, not_and_or, Bool.not_eq_true, assignedOps]
  · rw [cmdWrite_idle hb]
    exact ⟨rfl, rfl⟩
  · rw [sequencerTurn_of_illegal hb (hcmd ▸ hill)]
    exact ⟨_, rfl, complete_completedWith _ (SameRest.refl s), rfl, WritesNothing.refl s⟩

/-- Settles O27: the step is the sequencer's turn, and the turn is the decoded command. -/
theorem stepRunsTheDecodedCommand : Obligations.StepRunsTheDecodedCommand := by
  refine ⟨fun s i hb hd => ⟨fun hin => ?_, fun rest hin => ?_⟩, fun i s hi => ?_, fun s w i hd hw => ?_⟩
  · rw [step_nil hin, sequencerTurn_of_decode hb hd]
  · rw [step_cons hin, event]
    exact sequencerTurn_of_decode hb hd
  · obtain ⟨t, -, h, hbusy, -⟩ := exec_completes hi s
    exact ⟨t, h, hbusy⟩
  · rw [withFetchWord_eq s hw, step_nil rfl]
    exact ⟨sequencerTurn_of_decode rfl hd, rfl⟩

/-- Settles O56, expansion by expansion. -/
theorem pseudoInstructionEffects : Obligations.PseudoInstructionEffects := by
  refine ⟨fun rd s => ?_, fun rd rs1 s => ?_, fun s => ?_⟩
  · rw [Pseudo.expand, exec_add_eq, gfadd, BitVec.xor_self]
    exact succeedWith_spec rd 0#8 s
  · rw [Pseudo.expand, exec_mul_eq]
    exact succeedWith_spec rd _ s
  · rw [Pseudo.expand, exec_wipe_all]
    exact ⟨_, rfl, complete_completedWith none (SameRest.refl s), fun r => by simp [readG], fun a => ⟨rfl, rfl, rfl⟩⟩

end Sys2Proof.Machine
end

section
/-! SUPPORT. The bytes are the residues modulo X^8 + X^4 + X^3 + X + 1 of the polynomials over ZMod 2 (R3, R60): a bit vector stands
for a polynomial, `gfadd` and `gfmul` are the sum and the product of residues, and a byte is determined by its residue. The field
laws of `gfmul` are then laws of a commutative ring. -/

namespace Sys2Proof.Machine

open Polynomial

/-! ### The polynomial of a bit vector -/

@[simp] theorem coeff_asPolynomial {n : Nat} (v : BitVec n) (k : Nat) :
    (asPolynomial v).coeff k = if v.getLsbD k then 1 else 0 := by
  have hterm : ∀ i, (if v.getLsbD i then X ^ i else 0 : (ZMod 2)[X]).coeff k =
      if k = i then (if v.getLsbD k then 1 else 0) else 0 := fun i => by
    by_cases hki : k = i
    · subst hki
      cases v.getLsbD k <;> simp
    · cases v.getLsbD i <;> simp [coeff_X_pow, hki]
  rw [asPolynomial, finsetSum_coeff, Finset.sum_congr rfl fun i _ => hterm i, Finset.sum_ite_eq]
  by_cases hk : k < n
  · simp [hk]
  · simp [hk, BitVec.getLsbD_of_ge v k (Nat.le_of_not_lt hk)]

theorem asPolynomial_injective {n : Nat} : Function.Injective (asPolynomial : BitVec n → (ZMod 2)[X]) := by
  intro v w h
  refine BitVec.eq_of_getLsbD_eq fun k _ => ?_
  have hk := congrArg (coeff · k) h
  cases hv : v.getLsbD k <;> cases hw : w.getLsbD k <;> simp [hv, hw] at hk ⊢

/-- XOR adds the polynomials: in ZMod 2, 1 + 1 = 0. -/
theorem asPolynomial_xor {n : Nat} (v w : BitVec n) : asPolynomial (v ^^^ w) = asPolynomial v + asPolynomial w := by
  ext k
  rw [coeff_add, coeff_asPolynomial, coeff_asPolynomial, coeff_asPolynomial, BitVec.getLsbD_xor]
  cases v.getLsbD k <;> cases w.getLsbD k <;> decide

theorem asPolynomial_setWidth {n m : Nat} (h : n ≤ m) (v : BitVec n) : asPolynomial (v.setWidth m) = asPolynomial v := by
  ext k
  rw [coeff_asPolynomial, coeff_asPolynomial, BitVec.getLsbD_setWidth]
  by_cases hk : k < m
  · simp [hk]
  · simp [BitVec.getLsbD_of_ge v k (by omega)]

theorem natDegree_asPolynomial_le_iff {n : Nat} (v : BitVec n) (d : Nat) :
    (asPolynomial v).natDegree ≤ d ↔ ∀ k, d < k → v.getLsbD k = false := by
  simp [natDegree_le_iff_coeff_eq_zero]

theorem natDegree_byte_le (a : Byte) : (asPolynomial a).natDegree ≤ 7 :=
  (natDegree_asPolynomial_le_iff a 7).mpr fun k hk => BitVec.getLsbD_of_ge a k hk

/-- A left shift that drops no 1 multiplies by a power of X. -/
theorem asPolynomial_shiftLeft {n k : Nat} {v : BitVec n} (h : (asPolynomial v).natDegree + k < n) :
    asPolynomial (v <<< k) = asPolynomial v * X ^ k := by
  ext j
  rw [coeff_mul_X_pow', coeff_asPolynomial, coeff_asPolynomial, BitVec.getLsbD_shiftLeft]
  by_cases hkj : k ≤ j
  · by_cases hj : j < n
    · simp [hkj, hj, Nat.not_lt.mpr hkj]
    · have hzero := (natDegree_asPolynomial_le_iff v _).mp le_rfl (j - k) (by omega)
      simp [hzero]
  · simp [hkj, Nat.lt_of_not_le hkj]

theorem asPolynomial_zero (n : Nat) : asPolynomial 0#n = 0 := by
  ext k
  simp

theorem asPolynomial_one : asPolynomial 1#8 = 1 := by
  simp [asPolynomial]

/-! ### The carry-less product -/

/-- One row of the carry-less product. -/
theorem asPolynomial_row (a : Byte) {i : Nat} (hi : i < 8) :
    asPolynomial (a.zeroExtend 16 <<< i) = asPolynomial a * X ^ i := by
  have hext : asPolynomial (a.zeroExtend 16) = asPolynomial a := asPolynomial_setWidth (by norm_num) a
  have hdeg := natDegree_byte_le a
  rw [asPolynomial_shiftLeft (by rw [hext]; omega), hext]

/-- R60: the carry-less product is the product of the polynomials. -/
theorem asPolynomial_clmul (a b : Byte) : asPolynomial (clmul a b) = asPolynomial a * asPolynomial b := by
  have rows : ∀ n ≤ 8,
      asPolynomial ((List.range n).foldl (fun p i => if b.getLsbD i then p ^^^ (a.zeroExtend 16 <<< i) else p) 0#16) =
        asPolynomial a * ∑ i ∈ Finset.range n, if b.getLsbD i then X ^ i else 0 := fun n => by
    induction n with
    | zero => simp [asPolynomial_zero]
    | succ n ih =>
      intro hn
      rw [List.range_succ, List.foldl_append, List.foldl_cons, List.foldl_nil, Finset.sum_range_succ, mul_add,
        ← ih (by omega)]
      cases b.getLsbD n with
      | true => simp only [if_true, asPolynomial_xor, asPolynomial_row a hn]
      | false => simp
  exact rows 8 le_rfl

theorem natDegree_clmul_le (a b : Byte) : (asPolynomial (clmul a b)).natDegree ≤ 14 := by
  rw [asPolynomial_clmul]
  exact natDegree_mul_le_of_le (natDegree_byte_le a) (natDegree_byte_le b)

/-! ### Reduction -/

/-- R3: X^8 + X^4 + X^3 + X + 1 over ZMod 2. -/
noncomputable def gfModulus : (ZMod 2)[X] := X ^ 8 + X ^ 4 + X ^ 3 + X + 1

theorem asPolynomial_reductionPoly : asPolynomial reductionPoly = gfModulus :=
  calc asPolynomial reductionPoly
      = 1 + X + X ^ 3 + X ^ 4 + X ^ 8 := by simp [asPolynomial, Finset.sum_range_succ, reductionPoly]
    _ = gfModulus := by rw [gfModulus]; ring

theorem natDegree_gfModulus : gfModulus.natDegree = 8 := by
  unfold gfModulus
  compute_degree!

theorem monic_gfModulus : gfModulus.Monic := by
  unfold gfModulus
  monicity!

/-- The residue that a bit vector stands for. -/
noncomputable def residue {n : Nat} (v : BitVec n) : AdjoinRoot gfModulus := AdjoinRoot.mk gfModulus (asPolynomial v)

/-- A step of the reduction subtracts a multiple of the modulus. -/
theorem residue_reduceBit (p : BitVec 16) {k : Nat} (hk : k < 8) : residue (reduceBit p (k + 8)) = residue p := by
  have hshift : asPolynomial (reductionPoly <<< k) = gfModulus * X ^ k := by
    rw [asPolynomial_shiftLeft, asPolynomial_reductionPoly]
    rw [asPolynomial_reductionPoly, natDegree_gfModulus]
    omega
  rw [reduceBit, Nat.add_sub_cancel]
  split
  · rw [residue, asPolynomial_xor, hshift, map_add, map_mul, AdjoinRoot.mk_self, zero_mul, add_zero, residue]
  · rfl

theorem reductionPoly_bit {k : Nat} (hk : 8 ≤ k) : reductionPoly.getLsbD k = decide (k = 8) := by
  by_cases h16 : k < 16
  · interval_cases k <;> decide
  · rw [BitVec.getLsbD_of_ge _ _ (by omega), eq_comm, decide_eq_false_iff_not]
    omega

/-- A step of the reduction clears the highest bit. -/
theorem natDegree_reduceBit_le {p : BitVec 16} {k : Nat} (hp : (asPolynomial p).natDegree ≤ k + 8) :
    (asPolynomial (reduceBit p (k + 8))).natDegree ≤ k + 7 := by
  rw [natDegree_asPolynomial_le_iff] at hp ⊢
  intro j hj
  by_cases h16 : 16 ≤ j
  · exact BitVec.getLsbD_of_ge _ j h16
  have hpoly : (reductionPoly <<< k).getLsbD j = decide (j = k + 8) := by
    rw [BitVec.getLsbD_shiftLeft, reductionPoly_bit (by omega)]
    simp [show j < 16 by omega, show ¬ j < k by omega, show j - k = 8 ↔ j = k + 8 by omega]
  rw [reduceBit, Nat.add_sub_cancel]
  rcases eq_or_ne j (k + 8) with rfl | hne
  · cases hbit : p.getLsbD (k + 8) <;> simp [hbit, hpoly]
  · have hzero : p.getLsbD j = false := hp j (by omega)
    cases p.getLsbD (k + 8) <;> simp [hzero, hpoly, hne]

theorem residue_gfreduce (p : BitVec 16) : residue (gfreduce p) = residue p := by
  simp [gfreduce, residue_reduceBit]

/-- The seven steps of the reduction clear the bits 14 down to 8. -/
theorem natDegree_gfreduce_le {p : BitVec 16} (hp : (asPolynomial p).natDegree ≤ 14) :
    (asPolynomial (gfreduce p)).natDegree ≤ 7 := by
  have h13 := natDegree_reduceBit_le (k := 6) hp
  have h12 := natDegree_reduceBit_le (k := 5) h13
  have h11 := natDegree_reduceBit_le (k := 4) h12
  have h10 := natDegree_reduceBit_le (k := 3) h11
  have h9 := natDegree_reduceBit_le (k := 2) h10
  have h8 := natDegree_reduceBit_le (k := 1) h9
  exact natDegree_reduceBit_le (k := 0) h8

/-! ### The field operations on residues -/

/-- The low byte of a vector of degree below 8 has its polynomial. -/
theorem asPolynomial_extractLsb' {p : BitVec 16} (hp : (asPolynomial p).natDegree ≤ 7) :
    asPolynomial (p.extractLsb' 0 8) = asPolynomial p := by
  ext k
  rw [coeff_asPolynomial, coeff_asPolynomial, BitVec.getLsbD_extractLsb']
  by_cases hk : k < 8
  · simp [hk]
  · simp [(natDegree_asPolynomial_le_iff p 7).mp hp k (by omega)]

/-- R60: `gfmul` is the product modulo the reduction polynomial. -/
@[simp] theorem residue_gfmul (a b : Byte) : residue (gfmul a b) = residue a * residue b :=
  calc residue (gfmul a b)
      = residue (gfreduce (clmul a b)) :=
        congrArg (AdjoinRoot.mk gfModulus) (asPolynomial_extractLsb' (natDegree_gfreduce_le (natDegree_clmul_le a b)))
    _ = residue (clmul a b) := residue_gfreduce _
    _ = residue a * residue b := by rw [residue, asPolynomial_clmul, map_mul, residue, residue]

@[simp] theorem residue_gfadd (a b : Byte) : residue (gfadd a b) = residue a + residue b := by
  rw [residue, gfadd, asPolynomial_xor, map_add, residue, residue]

@[simp] theorem residue_zero : residue 0#8 = 0 := by rw [residue, asPolynomial_zero, map_zero]

@[simp] theorem residue_one : residue 1#8 = 1 := by rw [residue, asPolynomial_one, map_one]

@[simp] theorem residue_gfpow (a : Byte) (n : Nat) : residue (gfpow a n) = residue a ^ n := by
  induction n with
  | zero => simp
  | succ n ih => rw [gfpow_succ, residue_gfmul, ih, pow_succ]

/-- Two bytes with one residue are equal: their polynomials have degree below that of the modulus. -/
theorem residue_injective : Function.Injective (residue : Byte → AdjoinRoot gfModulus) := by
  intro a b h
  by_contra hab
  have hne : asPolynomial a - asPolynomial b ≠ 0 := sub_ne_zero.mpr (asPolynomial_injective.ne hab)
  have hdeg : (asPolynomial a - asPolynomial b).natDegree ≤ 7 :=
    natDegree_sub_le_of_le (natDegree_byte_le a) (natDegree_byte_le b)
  exact monic_gfModulus.not_dvd_of_natDegree_lt hne (by rw [natDegree_gfModulus]; omega) (AdjoinRoot.mk_eq_mk.mp h)

end Sys2Proof.Machine
end

section
/-! SUPPORT. The laws of the field functions (R61, R62, R64): `gfmul` through residues, and the answers of `gfinv` and `gfdiv`
through `gfmul`. -/

namespace Sys2Proof.Machine

/-! ### Addition and multiplication -/

theorem gfmul_comm (a b : Byte) : gfmul a b = gfmul b a := residue_injective (by simp [mul_comm])

theorem gfmul_assoc (a b c : Byte) : gfmul (gfmul a b) c = gfmul a (gfmul b c) := residue_injective (by simp [mul_assoc])

theorem gfmul_gfadd (a b c : Byte) : gfmul a (gfadd b c) = gfadd (gfmul a b) (gfmul a c) :=
  residue_injective (by simp [mul_add])

@[simp] theorem gfmul_zero (a : Byte) : gfmul a 0#8 = 0#8 := residue_injective (by simp)

@[simp] theorem zero_gfmul (a : Byte) : gfmul 0#8 a = 0#8 := residue_injective (by simp)

@[simp] theorem gfmul_one (a : Byte) : gfmul a 1#8 = a := residue_injective (by simp)

@[simp] theorem one_gfmul (a : Byte) : gfmul 1#8 a = a := residue_injective (by simp)

/-! ### Inverses -/

/-- R61: the addition chain computes the power. -/
theorem gfpow254_eq (a : Byte) : gfpow254 a = gfpow a 254 := by
  refine residue_injective ?_
  simp only [gfpow254, gfsquares, residue_gfmul, residue_gfpow]
  ring

/-- R61: the inverse of a nonzero element is a^254. -/
theorem exists_inverse {a : Byte} (ha : a ≠ 0#8) : ∃ b, gfmul a b = 1#8 ∧ b = gfpow a 254 :=
  ⟨gfpow254 a, gfmul_gfpow254 a ha, gfpow254_eq a⟩

theorem ne_zero_of_gfmul_eq_one {a b : Byte} (h : gfmul a b = 1#8) : a ≠ 0#8 := by
  rintro rfl
  simp at h

/-- With an inverse of `a`, `a * c = d` can be solved for `c`. -/
theorem gfmul_eq_iff_of_inverse {a b : Byte} (h : gfmul a b = 1#8) {c d : Byte} : gfmul a c = d ↔ c = gfmul d b := by
  constructor
  · rintro rfl
    rw [gfmul_comm a c, gfmul_assoc, h, gfmul_one]
  · rintro rfl
    rw [gfmul_comm d b, ← gfmul_assoc, h, one_gfmul]

/-- R61: an inverse is unique. -/
theorem gfmul_inverse_unique {a b c : Byte} (hb : gfmul a b = 1#8) (hc : gfmul a c = 1#8) : c = b := by
  rw [(gfmul_eq_iff_of_inverse hb).mp hc, one_gfmul]

/-- R61: `gfinv` answers exactly the inverse. -/
theorem gfinv_eq_some_iff {a b : Byte} : gfinv a = some b ↔ gfmul a b = 1#8 := by
  refine ⟨gfmul_of_gfinv, fun h => ?_⟩
  obtain ⟨c, hc, hmul⟩ := gfinv_of_gfmul h
  rw [hc, gfmul_inverse_unique h hmul]

@[simp] theorem gfinv_zero : gfinv 0#8 = none :=
  Option.eq_none_iff_forall_ne_some.mpr fun _ h => ne_zero_of_gfmul_eq_one (gfmul_of_gfinv h) rfl

/-- R64: the field has no zero divisors. -/
theorem gfmul_eq_zero_iff {a b : Byte} : gfmul a b = 0#8 ↔ a = 0#8 ∨ b = 0#8 := by
  constructor
  · intro h
    by_contra! hne
    obtain ⟨ha, hb⟩ := hne
    obtain ⟨i, hi, -⟩ := exists_inverse ha
    exact hb (by rw [(gfmul_eq_iff_of_inverse hi).mp h, zero_gfmul])
  · rintro (rfl | rfl) <;> simp

/-! ### Quotients -/

@[simp] theorem gfdiv_zero (a : Byte) : gfdiv a 0#8 = none := by simp [gfdiv]

/-- R62: with an inverse of the divisor, the quotient. -/
theorem gfdiv_of_inverse (a : Byte) {b i : Byte} (h : gfmul b i = 1#8) : gfdiv a b = some (gfmul a i) :=
  gfdiv_eq_some.mpr ⟨i, gfinv_eq_some_iff.mpr h, rfl⟩

/-- R64: division undoes multiplication. -/
theorem gfdiv_eq_some_iff {a b c : Byte} (hb : b ≠ 0#8) : gfdiv a b = some c ↔ gfmul b c = a := by
  obtain ⟨i, hi, -⟩ := exists_inverse hb
  rw [gfdiv_of_inverse a hi, Option.some.injEq, gfmul_eq_iff_of_inverse hi, eq_comm]

end Sys2Proof.Machine
end

section
/-! SUPPORT. The field commands by what they write: `succeedWith` of a value, or `raise` (R65 to R68); and the command that the word
of R57 decodes to. -/

namespace Sys2Proof.Machine

/-- Decoding reads a command's own fields back to the command (R53). -/
theorem decodeFields_fields (i : Instr) : decodeFields i.fields = some i := by
  cases i <;> simp [Instr.fields, decodeFields]

/-- A command whose word has its fields is what the word decodes to. -/
theorem decode_of_fields {i : Instr} {w : Word} (hw : encode i = w) (h : Laws.EncodedFields.Statement i) :
    decode w = some i := by
  rw [← hw, decode, h, decodeFields_fields]

theorem exec_inv_of_inverse {s : State} {rs1 : Reg} {b : Byte} (h : gfmul (readG s rs1) b = 1#8) (rd : Reg) :
    exec (.inv rd rs1) s = succeedWith rd b s := by
  rw [exec, execInv, if_neg (ne_zero_of_gfmul_eq_one h), gfinv_eq_some_iff.mpr h, succeedOrDivideByZero]

theorem exec_inv_zero {s : State} {rs1 : Reg} (h : readG s rs1 = 0#8) (rd : Reg) :
    exec (.inv rd rs1) s = raise .divideByZero s := by
  rw [exec, execInv, if_pos h]

theorem exec_div_of_inverse {s : State} {rs2 : Reg} {c : Byte} (h : gfmul (readG s rs2) c = 1#8) (rd rs1 : Reg) :
    exec (.div rd rs1 rs2) s = succeedWith rd (gfmul (readG s rs1) c) s := by
  rw [exec, execDiv, if_neg (ne_zero_of_gfmul_eq_one h), gfdiv_of_inverse _ h, succeedOrDivideByZero]

theorem exec_div_zero {s : State} {rs2 : Reg} (h : readG s rs2 = 0#8) (rd rs1 : Reg) :
    exec (.div rd rs1 rs2) s = raise .divideByZero s := by
  rw [exec, execDiv, if_pos h]

end Sys2Proof.Machine
end

section
/-! PROOF. Field arithmetic and the field commands (spec/40_field_arith.md). -/

namespace Sys2Proof.Machine

/-! ### The field functions -/

/-- Settles O1: the laws of `gfadd` are those of XOR, and the others are the laws of residues and inverses above. -/
theorem gfFieldLaws : Obligations.GfFieldLaws := by
  refine ⟨fun a b c => ⟨?_, ?_, ?_, ?_, gfmul_comm a b, gfmul_assoc a b c, gfmul_gfadd a b c, gfmul_zero a, gfmul_one a,
    gfdiv_zero a, gfmul_eq_zero_iff⟩, fun a ha => ?_, fun a b c hb => gfdiv_eq_some_iff hb⟩
  · exact BitVec.xor_comm a b
  · exact BitVec.xor_zero
  · exact BitVec.xor_self
  · exact BitVec.xor_assoc a b c
  · obtain ⟨b, hb, -⟩ := exists_inverse ha
    exact ⟨b, gfinv_eq_some_iff.mpr hb, hb, gfinv_eq_some_iff.mpr (gfmul_comm a b ▸ hb)⟩

/-- Settles O2: the two residues are equal. -/
theorem gfmulIsProductModuloPolynomial : Obligations.GfmulIsProductModuloPolynomial := by
  intro a b
  have h : AdjoinRoot.mk gfModulus (asPolynomial a * asPolynomial b) = residue (gfmul a b) := by
    rw [residue_gfmul, map_mul, residue, residue]
  exact AdjoinRoot.mk_eq_mk.mp h

/-- Settles O3: the inverse is a^254, and it is unique because `gfmul` by an inverse cancels. -/
theorem gfinvIsTheUniqueInverse : Obligations.GfinvIsTheUniqueInverse := by
  refine ⟨fun a ha => ?_, gfinv_zero, fun a b hb => ?_, gfdiv_zero⟩
  · obtain ⟨b, hb, hpow⟩ := exists_inverse ha
    exact ⟨b, gfinv_eq_some_iff.mpr hb, hb, fun c => gfmul_inverse_unique hb, hpow⟩
  · obtain ⟨i, hi, -⟩ := exists_inverse hb
    exact ⟨i, gfinv_eq_some_iff.mpr hi, gfdiv_of_inverse a hi⟩

/-! ### The field commands -/

/-- Settles O4: `succeedWith` of the XOR. -/
theorem addWritesXor : Obligations.AddWritesXor := by
  intro rd rs1 rs2 s
  obtain ⟨t, ht, hdone, hwrites⟩ := succeedWith_spec rd (readG s rs1 ^^^ readG s rs2) s
  refine ⟨decode_of_fields rfl (Laws.EncodedFields.add rd rs1 rs2), t, (exec_add_eq rd rs1 rs2 s).trans ht, hdone, hwrites, ?_⟩
  rw [hwrites.1]
  refine ⟨?_, fun h => ?_, fun h => ?_, fun h h' => ?_⟩
  · rintro rfl
    exact BitVec.xor_self
  · rw [h, BitVec.zero_xor]
  · rw [h, BitVec.xor_zero]
  · rw [h, h']
    rfl

/-- Settles O5: `succeedWith` of the product. -/
theorem mulWritesProduct : Obligations.MulWritesProduct := by
  intro rd rs1 rs2 s
  obtain ⟨t, ht, hdone, hwrites⟩ := succeedWith_spec rd (gfmul (readG s rs1) (readG s rs2)) s
  refine ⟨decode_of_fields rfl (Laws.EncodedFields.mul rd rs1 rs2), t, (exec_mul_eq rd rs1 rs2 s).trans ht, hdone, hwrites, ?_⟩
  rw [hwrites.1]
  refine ⟨gfmul_eq_zero_iff.mpr, fun h => ?_, fun h => ?_, fun h h' => ?_, fun h h' => ?_⟩
  · rw [h, one_gfmul]
  · rw [h, gfmul_one]
  · rw [h, h']
    decide
  · rw [h, h']
    decide

/-- Settles O6: the inverse of the inverse is the operand, since `gfmul` commutes. -/
theorem invWritesInverseOrDivideByZero : Obligations.InvWritesInverseOrDivideByZero := by
  intro rd rs1 s
  refine ⟨decode_of_fields rfl (Laws.EncodedFields.inv rd rs1), fun hne => ?_, fun h0 => ?_⟩
  · obtain ⟨b, hinv, -⟩ := exists_inverse hne
    obtain ⟨t, ht, hdone, hwrites⟩ := succeedWith_spec rd b s
    obtain ⟨u, hu, hdone', hwrites'⟩ := succeedWith_spec rd (readG s rs1) t
    have hback : gfmul (readG t rd) (readG s rs1) = 1#8 := by rw [hwrites.1, gfmul_comm, hinv]
    refine ⟨t, b, exec_inv_of_inverse hinv rd ▸ ht, hdone, hinv, hwrites, fun h => ?_, fun h => ?_,
      u, exec_inv_of_inverse hback rd ▸ hu, hdone', hwrites'⟩
    · exact gfmul_inverse_unique (by rw [h, gfmul_one]) hinv
    · exact gfmul_inverse_unique (by rw [h]; decide) hinv
  · rw [exec_inv_zero h0]
    exact raise_spec .divideByZero s

/-- Settles O7: `succeedWith` of the product with the inverse of the divisor. -/
theorem divWritesQuotientOrDivideByZero : Obligations.DivWritesQuotientOrDivideByZero := by
  intro rd rs1 rs2 s
  refine ⟨decode_of_fields rfl (Laws.EncodedFields.div rd rs1 rs2), fun hne => ?_, fun h0 => ?_⟩
  · obtain ⟨c, hinv, -⟩ := exists_inverse hne
    obtain ⟨t, ht, hdone, hwrites⟩ := succeedWith_spec rd (gfmul (readG s rs1) c) s
    refine ⟨t, c, exec_div_of_inverse hinv rd rs1 ▸ ht, hdone, hinv, hwrites, ?_⟩
    rw [hwrites.1]
    refine ⟨fun h => ?_, fun h => ?_, ?_, fun h h' => ?_⟩
    · rw [h, zero_gfmul]
    · rw [h] at hinv
      rw [gfmul_inverse_unique (gfmul_one 1#8) hinv, gfmul_one]
    · rintro rfl
      exact hinv
    · refine ((gfmul_eq_iff_of_inverse hinv).mp ?_).symm
      rw [h, h']
      decide
  · rw [exec_div_zero h0]
    exact raise_spec .divideByZero s

end Sys2Proof.Machine
end

section
/-! SUPPORT. The residues of the bytes are the field GF(2^8) (R3): every residue is a byte's, and the modulus is irreducible, so
that XOR, `gfmul` and the power 254 are the subtraction, the product and the inverse of a field of Mathlib's. -/

namespace Sys2Proof.Machine

open Polynomial

/-- Every residue is a byte's: those of the bytes include 0, 1 and the residue of X, and are closed under sums and products. -/
theorem residue_surjective : Function.Surjective (residue : Byte → AdjoinRoot gfModulus) := by
  intro r
  obtain ⟨p, rfl⟩ := AdjoinRoot.mk_surjective r
  induction p using Polynomial.induction_on with
  | C a =>
    obtain rfl | rfl : a = 0 ∨ a = 1 := by decide +revert
    · exact ⟨0#8, by simp⟩
    · exact ⟨1#8, by simp⟩
  | add p q hp hq =>
    obtain ⟨v, hv⟩ := hp
    obtain ⟨w, hw⟩ := hq
    exact ⟨gfadd v w, by rw [residue_gfadd, hv, hw, map_add]⟩
  | monomial n a ih =>
    obtain ⟨v, hv⟩ := ih
    have hX : residue 2#8 = AdjoinRoot.mk gfModulus X := by simp [residue, asPolynomial, Finset.sum_range_succ]
    exact ⟨gfmul v 2#8, by rw [residue_gfmul, hv, hX, ← map_mul, pow_succ, mul_assoc]⟩

/-- R3: the modulus is irreducible, because `gfmul` has no zero divisors. -/
theorem irreducible_gfModulus : Irreducible gfModulus := by
  have hunit : ¬ IsUnit gfModulus := fun h => by simpa [natDegree_gfModulus] using natDegree_eq_zero_of_isUnit h
  refine Prime.irreducible ⟨monic_gfModulus.ne_zero, hunit, fun p q hpq => ?_⟩
  obtain ⟨a, ha⟩ := residue_surjective (AdjoinRoot.mk gfModulus p)
  obtain ⟨b, hb⟩ := residue_surjective (AdjoinRoot.mk gfModulus q)
  have hzero : gfmul a b = 0#8 :=
    residue_injective (by rw [residue_gfmul, ha, hb, ← map_mul, AdjoinRoot.mk_eq_zero.mpr hpq, residue_zero])
  rcases gfmul_eq_zero_iff.mp hzero with rfl | rfl
  · exact .inl (AdjoinRoot.mk_eq_zero.mp (by rw [← ha, residue_zero]))
  · exact .inr (AdjoinRoot.mk_eq_zero.mp (by rw [← hb, residue_zero]))

/-- The form in which Mathlib takes irreducibility, to make the residues a field. -/
theorem fact_irreducible_gfModulus : Fact (Irreducible gfModulus) := ⟨irreducible_gfModulus⟩

/-- R59: XOR is subtraction as well. -/
theorem residue_gfadd_eq_sub (a b : Byte) : residue (gfadd a b) = residue a - residue b := by
  have hself : residue b + residue b = 0 := by rw [← residue_gfadd, gfadd, BitVec.xor_self, residue_zero]
  rw [residue_gfadd, sub_eq_add_neg, ← eq_neg_of_add_eq_zero_left hself]

/-- R61: the power 254 is the inverse. -/
theorem residue_gfpow_254 [Fact (Irreducible gfModulus)] {a : Byte} (ha : a ≠ 0#8) :
    residue (gfpow a 254) = (residue a)⁻¹ := by
  obtain ⟨b, hb, rfl⟩ := exists_inverse ha
  exact eq_inv_of_mul_eq_one_right (by rw [← residue_gfmul, hb, residue_one])

/-! ### Loops that add and multiply -/

theorem residue_foldl_gfadd (g : Nat → Byte) (l : List Nat) (a : Byte) :
    residue (l.foldl (fun acc i => gfadd acc (g i)) a) = residue a + (l.map fun i => residue (g i)).sum := by
  induction l generalizing a with
  | nil => simp
  | cons i l ih => rw [List.foldl_cons, ih, residue_gfadd, List.map_cons, List.sum_cons, add_assoc]

theorem residue_foldl_gfmul (g : Nat → Byte) (l : List Nat) (a : Byte) :
    residue (l.foldl (fun acc j => gfmul acc (g j)) a) = residue a * (l.map fun j => residue (g j)).prod := by
  induction l generalizing a with
  | nil => simp
  | cons j l ih => rw [List.foldl_cons, ih, residue_gfmul, List.map_cons, List.prod_cons, mul_assoc]

/-- A loop `for i in 0..k-1: acc := gfadd(acc, g(i))` from 0x00 is a sum. -/
theorem residue_sum_range (g : Nat → Byte) (k : Nat) :
    residue ((List.range k).foldl (fun acc i => gfadd acc (g i)) 0#8) = ∑ i ∈ Finset.range k, residue (g i) := by
  rw [residue_foldl_gfadd, residue_zero, zero_add, ← List.sum_toFinset _ List.nodup_range, List.toFinset_range]

/-- A loop `for j in 0..k-1, j != i: acc := gfmul(acc, g(j))` from 0x01 is a product. -/
theorem residue_prod_range_ne (g : Nat → Byte) (k i : Nat) :
    residue (((List.range k).filter (· ≠ i)).foldl (fun acc j => gfmul acc (g j)) 1#8) =
      ∏ j ∈ (Finset.range k).erase i, residue (g j) := by
  rw [residue_foldl_gfmul, residue_one, one_mul, ← List.prod_toFinset _ (List.nodup_range.filter _)]
  refine Finset.prod_congr (Finset.ext fun j => ?_) fun _ _ => rfl
  simp [and_comm]

end Sys2Proof.Machine
end

section
/-! SUPPORT. The values of EVAL (R69, R70): the Horner loop, from either starting value, is the polynomial sum. -/

namespace Sys2Proof.Machine

/-- The Horner loop of R69: i runs from k-1 down to 0, from the accumulator `acc`. -/
def hornerLoop (c : Memory) (x : Byte) (k : Nat) (acc : Byte) : Byte :=
  (List.range k).reverse.foldl (fun acc i => gfadd (c.read i) (gfmul acc x)) acc

theorem horner_eq_hornerLoop (c : Memory) (k : Nat) (x : Byte) :
    horner c k x = hornerLoop c x (k - 1) (c.read (k - 1)) := by
  rw [horner, hornerLoop, List.foldl_reverse]

theorem hornerLoop_succ (c : Memory) (x : Byte) (k : Nat) (acc : Byte) :
    hornerLoop c x (k + 1) acc = hornerLoop c x k (gfadd (c.read k) (gfmul acc x)) := by
  rw [hornerLoop, List.range_succ, List.reverse_concat, List.foldl_cons, hornerLoop]

/-- R70: the loop from 0x00 and i = k-1 has the accumulator C[k-1] after its first turn. -/
theorem hornerLoop_eq_horner (c : Memory) (x : Byte) {k : Nat} (hk : 0 < k) : hornerLoop c x k 0#8 = horner c k x := by
  obtain ⟨n, rfl⟩ := Nat.exists_eq_succ_of_ne_zero hk.ne'
  rw [hornerLoop_succ, zero_gfmul, gfadd, BitVec.xor_zero, horner_eq_hornerLoop, Nat.succ_eq_add_one, Nat.add_sub_cancel]

theorem residue_hornerLoop (c : Memory) (x : Byte) (k : Nat) (acc : Byte) :
    residue (hornerLoop c x k acc) =
      ∑ i ∈ Finset.range k, residue (c.read i) * residue x ^ i + residue acc * residue x ^ k := by
  induction k generalizing acc with
  | zero => simp [hornerLoop]
  | succ k ih =>
    rw [hornerLoop_succ, ih, Finset.sum_range_succ, residue_gfadd, residue_gfmul]
    ring

theorem residue_polySum (c : Memory) (k : Nat) (x : Byte) :
    residue (polySum c k x) = ∑ i ∈ Finset.range k, residue (c.read i) * residue x ^ i := by
  simp [polySum, residue_sum_range]

/-- R70: the loop from 0x00 computes the polynomial sum. -/
theorem hornerLoop_eq_polySum (c : Memory) (x : Byte) (k : Nat) : hornerLoop c x k 0#8 = polySum c k x :=
  residue_injective (by rw [residue_hornerLoop, residue_polySum, residue_zero, zero_mul, add_zero])

theorem horner_eq_polySum (c : Memory) (x : Byte) {k : Nat} (hk : 0 < k) : horner c k x = polySum c k x := by
  rw [← hornerLoop_eq_horner c x hk, hornerLoop_eq_polySum]

/-! ### Special points -/

/-- One coefficient: the polynomial is constant. -/
theorem polySum_one_coefficient (c : Memory) (x : Byte) : polySum c 1 x = c.read 0 :=
  residue_injective (by simp [residue_polySum])

/-- The value at 0x00 is the intercept. -/
theorem polySum_at_zero (c : Memory) {k : Nat} (hk : 0 < k) : polySum c k 0#8 = c.read 0 := by
  refine residue_injective ?_
  rw [residue_polySum, residue_zero, Finset.sum_eq_single_of_mem 0 (Finset.mem_range.mpr hk)]
  · rw [pow_zero, mul_one]
  · intro i _ hi
    rw [zero_pow hi, mul_zero]

/-- The value at 0x01 is the sum of the coefficients. -/
theorem polySum_at_one (c : Memory) (k : Nat) :
    polySum c k 1#8 = (List.range k).foldl (fun acc i => gfadd acc (c.read i)) 0#8 :=
  residue_injective (by simp [residue_polySum, residue_sum_range])

/-- R69: the direct answer at x = 0x00 is the value too. -/
theorem evalAt_eq_polySum (c : Memory) (x : Byte) {k : Nat} (hk : 0 < k) : evalAt c k x = polySum c k x := by
  rw [evalAt, horner_eq_polySum c x hk]
  split
  · rename_i hx
    rw [hx, polySum_at_zero c hk]
  · rfl

end Sys2Proof.Machine
end

section
/-! SUPPORT. The value of INTERP (R71, R72): over distinct coordinates it is the Lagrange sum, which is the value at z of Mathlib's
Lagrange interpolant of the residues. -/

namespace Sys2Proof.Machine

open Polynomial

/-! ### Distinct coordinates -/

theorem distinct_iff_hasDuplicate_eq_false {xs : Memory} {k : Nat} : Distinct xs k ↔ hasDuplicate xs k = false := by
  rw [← Bool.not_eq_true, hasDuplicate_eq_true_iff]
  constructor
  · rintro h ⟨i, -, j, hj, hij, heq⟩
    exact h i j hij hj heq
  · intro h i j hij hj heq
    exact h ⟨i, hij.trans hj, j, hj, hij, heq⟩

theorem Distinct.read_ne {xs : Memory} {k i j : Nat} (h : Distinct xs k) (hi : i < k) (hj : j < k) (hji : j ≠ i) :
    xs.read i ≠ xs.read j :=
  read_ne_of_not_hasDuplicate (distinct_iff_hasDuplicate_eq_false.mp h) hi hj hji

/-- R71: the divisors of INTERP are nonzero. -/
theorem Distinct.gfadd_ne_zero {xs : Memory} {k i j : Nat} (h : Distinct xs k) (hi : i < k) (hj : j < k) (hji : j ≠ i) :
    gfadd (xs.read i) (xs.read j) ≠ 0#8 := fun h0 => h.read_ne hi hj hji (BitVec.xor_eq_zero_iff.mp h0)

/-- The nodes of the interpolant are distinct: the form in which Mathlib takes it. -/
theorem Distinct.injOn_residue {xs : Memory} {k : Nat} (h : Distinct xs k) :
    Set.InjOn (fun i => residue (xs.read i)) (Finset.range k) := by
  intro i hi j hj heq
  by_contra hij
  exact h.read_ne (Finset.mem_range.mp hi) (Finset.mem_range.mp hj) (Ne.symm hij) (residue_injective heq)

/-- Coordinates taken in the order of an injective `p` are distinct if the coordinates are. -/
theorem Distinct.permuted {xs xs' : Memory} {k : Nat} {p : Nat → Nat} (h : Distinct xs k) (hp : ∀ i < k, p i < k)
    (hinj : ∀ i j, i < k → j < k → p i = p j → i = j) (hx : ∀ i < k, xs'.read i = xs.read (p i)) : Distinct xs' k := by
  intro i j hij hj
  have hi := hij.trans hj
  rw [hx i hi, hx j hj]
  exact h.read_ne (hp i hi) (hp j hj) fun hpp => hij.ne (hinj i j hi hj hpp.symm)

/-! ### The loops of INTERP with every quotient in closed form (R61) -/

/-- One factor of the basis product, the quotient written with the power 254 (R61). -/
def lagrangeFactor (xs : Memory) (z : Byte) (i j : Nat) : Byte :=
  gfmul (gfadd z (xs.read j)) (gfpow (gfadd (xs.read i) (xs.read j)) 254)

/-- The basis product of `lagrangeSum`. -/
def basisProduct (xs : Memory) (k : Nat) (z : Byte) (i : Nat) : Byte :=
  ((List.range k).filter (· ≠ i)).foldl (fun b j => gfmul b (lagrangeFactor xs z i j)) 1#8

theorem lagrangeSum_eq (xs ys : Memory) (k : Nat) (z : Byte) :
    lagrangeSum xs ys k z =
      (List.range k).foldl (fun acc i => gfadd acc (gfmul (ys.read i) (basisProduct xs k z i))) 0#8 := rfl

theorem gfdiv_of_ne_zero (a : Byte) {b : Byte} (hb : b ≠ 0#8) : gfdiv a b = some (gfmul a (gfpow b 254)) := by
  obtain ⟨i, hi, rfl⟩ := exists_inverse hb
  exact gfdiv_of_inverse a hi

theorem lagrangeBasis_of_distinct {xs : Memory} {k : Nat} (h : Distinct xs k) (z : Byte) {i : Nat} (hi : i < k) :
    lagrangeBasis xs k z i = some (basisProduct xs k z i) := by
  have hstep : ∀ j ∈ List.range k, ∀ b,
      basisStep xs z i b j = pure (if decide (j ≠ i) then gfmul b (lagrangeFactor xs z i j) else b) := fun j hj b => by
    by_cases hji : j = i
    · simp [basisStep, hji]
    · simp [basisStep, hji, gfdiv_of_ne_zero _ (h.gfadd_ne_zero hi (List.mem_range.mp hj) hji), lagrangeFactor]
  rw [lagrangeBasis, foldlM_congr hstep, List.foldlM_pure, basisProduct, List.foldl_filter]
  rfl

/-- R71: over distinct coordinates every quotient exists, and the interpolant's value is the Lagrange sum. -/
theorem interpolate_of_distinct {xs : Memory} {k : Nat} (h : Distinct xs k) (ys : Memory) (z : Byte) :
    interpolate xs ys k z = some (lagrangeSum xs ys k z) := by
  have hstep : ∀ i ∈ List.range k, ∀ acc : Byte,
      ((lagrangeBasis xs k z i).map fun basis => gfadd acc (gfmul basis (ys.read i))) =
        pure (gfadd acc (gfmul (ys.read i) (basisProduct xs k z i))) := fun i hi acc => by
    rw [lagrangeBasis_of_distinct h z (List.mem_range.mp hi), gfmul_comm (ys.read i)]
    rfl
  rw [interpolate, foldlM_congr hstep, List.foldlM_pure, lagrangeSum_eq]
  rfl

/-! ### The interpolant -/

/-- The polynomial over GF(2^8) whose coefficient i is element i of a bank (R70), up to degree k-1. -/
noncomputable def coefficientPolynomial (c : Memory) (k : Nat) : (AdjoinRoot gfModulus)[X] :=
  ∑ i ∈ Finset.range k, C (residue (c.read i)) * X ^ i

theorem eval_coefficientPolynomial (c : Memory) (k : Nat) (x : Byte) :
    (coefficientPolynomial c k).eval (residue x) = residue (polySum c k x) := by
  simp [coefficientPolynomial, eval_finsetSum, residue_polySum]

theorem degree_coefficientPolynomial_lt (c : Memory) (k : Nat) :
    (coefficientPolynomial c k).degree < (Finset.range k).card := by
  rw [Finset.card_range, coefficientPolynomial, Finset.sum_range]
  exact degree_sum_fin_lt _

section
variable [Fact (Irreducible gfModulus)]

/-- Mathlib's Lagrange interpolant of the points (X[i], Y[i]), i = 0..k-1. -/
noncomputable def interpolant (xs ys : Memory) (k : Nat) : (AdjoinRoot gfModulus)[X] :=
  Lagrange.interpolate (Finset.range k) (fun i => residue (xs.read i)) fun i => residue (ys.read i)

theorem residue_basisProduct {xs : Memory} {k : Nat} (h : Distinct xs k) (z : Byte) {i : Nat} (hi : i < k) :
    residue (basisProduct xs k z i) =
      (Lagrange.basis (Finset.range k) (fun j => residue (xs.read j)) i).eval (residue z) := by
  rw [basisProduct, residue_prod_range_ne, Lagrange.basis, eval_prod]
  refine Finset.prod_congr rfl fun j hj => ?_
  obtain ⟨hji, hj⟩ := Finset.mem_erase.mp hj
  rw [lagrangeFactor, residue_gfmul, residue_gfpow_254 (h.gfadd_ne_zero hi (Finset.mem_range.mp hj) hji),
    residue_gfadd_eq_sub, residue_gfadd_eq_sub, Lagrange.basisDivisor, eval_mul, eval_C, eval_sub, eval_X, eval_C, mul_comm]

/-- R71: the Lagrange sum is the interpolant's value. -/
theorem residue_lagrangeSum {xs : Memory} {k : Nat} (h : Distinct xs k) (ys : Memory) (z : Byte) :
    residue (lagrangeSum xs ys k z) = (interpolant xs ys k).eval (residue z) := by
  rw [lagrangeSum_eq, residue_sum_range, interpolant, Lagrange.interpolate_apply, eval_finsetSum]
  refine Finset.sum_congr rfl fun i hi => ?_
  rw [residue_gfmul, residue_basisProduct h z (Finset.mem_range.mp hi), eval_mul, eval_C]

end

/-- R71: at a sample point the Lagrange sum is the sample's value. -/
theorem lagrangeSum_at_sample {xs : Memory} {k m : Nat} (h : Distinct xs k) (ys : Memory) (hm : m < k) :
    lagrangeSum xs ys k (xs.read m) = ys.read m := by
  have := fact_irreducible_gfModulus
  refine residue_injective ?_
  rw [residue_lagrangeSum h]
  exact Lagrange.eval_interpolate_at_node _ h.injOn_residue (Finset.mem_range.mpr hm)

theorem lagrangeSum_one_point (xs ys : Memory) (z : Byte) : lagrangeSum xs ys 1 z = ys.read 0 := by
  simp [lagrangeSum, gfadd]

/-- R72: over points on a polynomial of degree at most k-1 the Lagrange sum is the polynomial's value, since the interpolant is the
only such polynomial through the points. -/
theorem lagrangeSum_of_polySum {xs ys f : Memory} {k : Nat} (h : Distinct xs k)
    (hf : ∀ i < k, ys.read i = polySum f k (xs.read i)) (z : Byte) : lagrangeSum xs ys k z = polySum f k z := by
  have := fact_irreducible_gfModulus
  have hunique : coefficientPolynomial f k = interpolant xs ys k :=
    Lagrange.eq_interpolate_of_eval_eq _ h.injOn_residue (degree_coefficientPolynomial_lt f k) fun i hi => by
      rw [eval_coefficientPolynomial, hf i (Finset.mem_range.mp hi)]
  exact residue_injective (by rw [residue_lagrangeSum h, ← hunique, eval_coefficientPolynomial])

/-- R72: the order of the points does not matter, since the interpolant of the points goes through the permuted points. -/
theorem lagrangeSum_permuted {xs ys xs' ys' : Memory} {k : Nat} {p : Nat → Nat} (h : Distinct xs k) (h' : Distinct xs' k)
    (hp : ∀ i < k, p i < k) (hxy : ∀ i < k, xs'.read i = xs.read (p i) ∧ ys'.read i = ys.read (p i)) (z : Byte) :
    lagrangeSum xs' ys' k z = lagrangeSum xs ys k z := by
  have := fact_irreducible_gfModulus
  have hdegree : (interpolant xs ys k).degree < (Finset.range k).card :=
    Lagrange.degree_interpolate_lt _ h.injOn_residue
  have hunique : interpolant xs ys k = interpolant xs' ys' k :=
    Lagrange.eq_interpolate_of_eval_eq _ h'.injOn_residue hdegree fun i hi => by
      obtain ⟨hx, hy⟩ := hxy i (Finset.mem_range.mp hi)
      rw [hx, hy, ← residue_lagrangeSum h, lagrangeSum_at_sample h ys (hp i (Finset.mem_range.mp hi))]
  exact residue_injective (by rw [residue_lagrangeSum h', residue_lagrangeSum h, hunique])

end Sys2Proof.Machine
end

section
/-! SUPPORT. EVAL and INTERP by what they write: `succeedWith` of a value, or nothing when a check fails (R69, R71, R84). -/

namespace Sys2Proof.Machine

/-- R84, R85: a command other than PICK whose check fails completes with that check's error and writes nothing. -/
theorem exec_of_firstError {i : Instr} {s : State} {e : ErrorKind} (hi : ∀ rs1, i ≠ .pick rs1)
    (h : firstError i s = some e) : ∃ t, exec i s = .next t ∧ CompletedWith (some e) s t ∧ WritesNothing s t := by
  obtain ⟨t, e', ht, -⟩ := exec_completes hi s
  refine ⟨t, ht, ?_⟩
  cases CommandEnd.of_exec ht with
  | waits hw =>
    obtain ⟨rs1, rfl, -⟩ := hw
    exact absurd rfl (hi rs1)
  | fails h' =>
    obtain rfl : _ = e := Option.some.inj (h'.symm.trans h)
    exact ⟨complete_completedWith _ (SameRest.refl s), WritesNothing.refl s⟩
  | clearsCoordinates => exact absurd rfl (hi _)
  | selects => exact absurd rfl (hi _)
  | writes _ h' => simp [h'] at h
  | nop => simp [firstError] at h
  | wipes => simp [firstError] at h

theorem readG_pos_iff (s : State) (r : Reg) : 0 < (readG s r).toNat ↔ readG s r ≠ 0#8 := by
  rw [← countOf_eq, Nat.pos_iff_ne_zero, ne_eq, countOf_eq_zero_iff]

/-- R70: EVAL with a nonzero order writes the polynomial sum. -/
theorem exec_eval_of_ne_zero {s : State} {rs2 : Reg} (hk : readG s rs2 ≠ 0#8) (rd rs1 : Reg) :
    exec (.eval rd rs1 rs2) s = succeedWith rd (polySum s.C (readG s rs2).toNat (readG s rs1)) s := by
  have hpos := (readG_pos_iff s rs2).mpr hk
  rw [exec, execEval, countOf_eq, if_neg hpos.ne', evalAt_eq_polySum _ _ hpos]

/-- R71: INTERP over distinct coordinates writes the Lagrange sum. -/
theorem exec_interp_of_distinct {s : State} {rs2 rs3 : Reg} (hlen : readG s rs2 = readG s rs3) (hk : readG s rs2 ≠ 0#8)
    (hd : Distinct s.X (readG s rs2).toNat) (rd rs1 : Reg) :
    exec (.interp rd rs1 rs2 rs3) s = succeedWith rd (lagrangeSum s.X s.Y (readG s rs2).toNat (readG s rs1)) s := by
  have hpos := (readG_pos_iff s rs2).mpr hk
  rw [exec, execInterp, countOf_eq, countOf_eq, ← hlen, if_neg (not_not.mpr rfl), if_neg hpos.ne',
    distinct_iff_hasDuplicate_eq_false.mp hd, if_neg Bool.false_ne_true, interpolate_of_distinct hd, succeedOrDivideByZero]

/-- INTERP over distinct coordinates succeeds and writes whatever the Lagrange sum is equal to. -/
theorem interp_spec {s : State} {rs1 rs2 rs3 : Reg} {v : Byte} (hlen : readG s rs2 = readG s rs3) (hk : readG s rs2 ≠ 0#8)
    (hd : Distinct s.X (readG s rs2).toNat) (hv : lagrangeSum s.X s.Y (readG s rs2).toNat (readG s rs1) = v) (rd : Reg) :
    ∃ t, exec (.interp rd rs1 rs2 rs3) s = .next t ∧ CompletedWith none s t ∧ WritesOnly rd v s t := by
  rw [exec_interp_of_distinct hlen hk hd, hv]
  exact succeedWith_spec rd v s

end Sys2Proof.Machine
end

section
/-! PROOF. The polynomial commands (spec/41_polynomial.md). -/

namespace Sys2Proof.Machine

/-! ### EVAL -/

/-- Settles O8: the value is the polynomial sum, which the loop computes and whose special points are those of R69. -/
theorem evalRunsHorner : Obligations.EvalRunsHorner := by
  intro rd rs1 rs2 s
  refine ⟨decode_of_fields rfl (Laws.EncodedFields.eval rd rs1 rs2), fun h0 => ?_, fun hk => ?_⟩
  · exact exec_of_firstError nofun (if_pos h0)
  · obtain ⟨t, ht, hdone, hwrites⟩ := succeedWith_spec rd (polySum s.C (readG s rs2).toNat (readG s rs1)) s
    have hpos := (readG_pos_iff s rs2).mpr hk
    refine ⟨t, _, exec_eval_of_ne_zero hk rd rs1 ▸ ht, hdone, hwrites, ?_, fun h1 => ?_, fun hx => ?_, fun hx => ?_,
      fun hx hn h0 h1 h2 => ?_⟩
    · rw [← horner_eq_polySum _ _ hpos, horner_eq_hornerLoop]
      rfl
    · rw [h1]
      exact polySum_one_coefficient s.C _
    · rw [hx, polySum_at_zero s.C hpos]
    · rw [hx, polySum_at_one]
      rfl
    · rw [hx, hn]
      calc polySum s.C 3 2#8
          = horner s.C 3 2#8 := (horner_eq_polySum s.C 2#8 (by decide)).symm
        _ = gfadd (s.C.read 0) (gfmul (gfadd (s.C.read 1) (gfmul (s.C.read 2) 2#8)) 2#8) := rfl
        _ = gfadd 0x2A#8 (gfmul (gfadd 0x07#8 (gfmul 0x13#8 2#8)) 2#8) := by rw [h0, h1, h2]
        _ = gfadd 0x2A#8 (gfmul (gfadd 0x07#8 0x26#8) 2#8) := by rw [show gfmul 0x13#8 2#8 = 0x26#8 by decide]
        _ = gfadd 0x2A#8 0x42#8 := by rw [show gfmul (gfadd 0x07#8 0x26#8) 2#8 = 0x42#8 by decide]
        _ = 0x68#8 := by decide

/-- Settles O9: EVAL writes the polynomial sum, and the loop from 0x00 computes it. -/
theorem evalEqualsPolynomialSum : Obligations.EvalEqualsPolynomialSum := by
  intro rd rs1 rs2 s hk
  have hne : readG s rs2 ≠ 0#8 := (readG_pos_iff s rs2).mp hk
  obtain ⟨t, ht, hdone, hwrites⟩ := succeedWith_spec rd (polySum s.C (readG s rs2).toNat (readG s rs1)) s
  exact ⟨t, exec_eval_of_ne_zero hne rd rs1 ▸ ht, hdone, hwrites, hornerLoop_eq_polySum s.C (readG s rs1) (countOf s rs2)⟩

/-! ### INTERP -/

/-- Settles O10: each premise makes its check the first that fails (R85). -/
theorem interpChecksInOrder : Obligations.InterpChecksInOrder := by
  intro rd rs1 rs2 rs3 s
  refine ⟨fun hlen => ?_, fun hlen h0 => ?_, fun hlen hk hd => ?_⟩
  · exact exec_of_firstError nofun (if_pos hlen)
  · exact exec_of_firstError nofun ((if_neg (not_not.mpr hlen)).trans (if_pos h0))
  · have hdup : hasDuplicate s.X (countOf s rs2) = true :=
      Bool.not_eq_false _ ▸ distinct_iff_hasDuplicate_eq_false.not.mp hd
    exact exec_of_firstError nofun ((if_neg (not_not.mpr hlen)).trans ((if_neg hk).trans (if_pos hdup)))

/-- Settles O11: over distinct coordinates the Lagrange sum itself is written. -/
theorem interpWritesLagrangeSum : Obligations.InterpWritesLagrangeSum :=
  fun rd _ _ _ _ hlen hk hd => interp_spec hlen hk hd rfl rd

/-- Settles O12: the Lagrange sum of one point, and at a sample point, is the sample's value. -/
theorem interpReturnsSampleValues : Obligations.InterpReturnsSampleValues := by
  intro rd rs1 rs2 rs3 s m hlen hm hd hcase
  have hk : readG s rs2 ≠ 0#8 := (readG_pos_iff s rs2).mp (Nat.zero_lt_of_lt hm)
  refine interp_spec hlen hk hd ?_ rd
  rcases hcase with h1 | hz
  · rw [h1] at hm ⊢
    obtain rfl : m = 0 := Nat.lt_one_iff.mp hm
    exact lagrangeSum_one_point s.X s.Y _
  · rw [hz, lagrangeSum_at_sample hd s.Y hm]

/-- Settles O13: the interpolant is the polynomial, and its value at 0x00 is the intercept. -/
theorem interpRecoversPolynomial : Obligations.InterpRecoversPolynomial := by
  intro rd rs1 rs2 rs3 s f hlen hk hd hf
  obtain ⟨t, ht, hdone, hwrites⟩ := interp_spec hlen hk hd (lagrangeSum_of_polySum hd hf (readG s rs1)) rd
  have hpos := (readG_pos_iff s rs2).mpr hk
  refine ⟨t, ht, hdone, hwrites, fun hz => ?_⟩
  obtain ⟨hrd, -⟩ := hwrites
  rw [hrd, hz, polySum_at_zero f hpos]

/-- Settles O14: the permuted points are distinct and have the same interpolant. -/
theorem interpIsOrderIndependent : Obligations.InterpIsOrderIndependent := by
  intro rd rs1 rs2 rs3 s x' y' p hlen hk hd hp hinj hxy
  have hd' : Distinct x' (readG s rs2).toNat := hd.permuted hp hinj fun i hi => (hxy i hi).1
  obtain ⟨t, ht, hdone, hwrites⟩ := interp_spec hlen hk hd rfl rd (rs1 := rs1)
  obtain ⟨u, hu, hdone', hwrites'⟩ := interp_spec (s := { s with X := x', Y := y' }) (rs1 := rs1) hlen hk hd'
    (lagrangeSum_permuted hd hd' hp hxy (readG s rs1)) rd
  obtain ⟨-, -, herr, -⟩ := hdone
  obtain ⟨-, -, herr', -⟩ := hdone'
  obtain ⟨hrd, -⟩ := hwrites
  obtain ⟨hrd', -⟩ := hwrites'
  exact ⟨t, u, ht, hu, herr, herr', hrd'.trans hrd.symm⟩

end Sys2Proof.Machine
end

section
/-! SUPPORT. The shuffle of PICK by its equations, one draw at a time; what a draw does to the bank, and how many answers the
steps take (R74, R76). -/

namespace Sys2Proof.Machine

/-! ### One draw -/

theorem shuffle_unanswered {n i : Nat} (hi : i < n) (x : Memory) : shuffle n [] i x = .waiting := by
  rw [shuffle, if_neg hi.not_ge]

theorem shuffle_fail {n i : Nat} (hi : i < n) (ds : List Draw) (x : Memory) : shuffle n (.fail :: ds) i x = .failed ds := by
  rw [shuffle, if_neg hi.not_ge]

theorem shuffle_byte {n i : Nat} (hi : i < n) (r : Byte) (ds : List Draw) (x : Memory) :
    shuffle n (.byte r :: ds) i x =
      if r.toNat < drawLimit i then shuffle n ds (i + 1) (x.swap i (i + r.toNat % candidates i)) else shuffle n ds i x := by
  rw [shuffle, if_neg hi.not_ge]

/-! ### The bank -/

/-- A swap reads as the bank with two indices exchanged. -/
theorem Memory.read_swap {m : Memory} (h : m.wf = true) {i j : Nat} (hi : i < 256) (hj : j < 256) (a : Nat) :
    (m.swap i j).read a = m.read (Equiv.swap i j a) := by
  obtain ⟨-, hread⟩ := Memory.swap_spec h hi hj
  rw [hread, Equiv.swap_comm, Equiv.swap_apply_def, apply_ite m.read, apply_ite m.read]

/-- Exchanging two positions of a list permutes it. -/
theorem map_range_swap_perm {α : Type} (f : Nat → α) {n i j : Nat} (hi : i < n) (hj : j < n) :
    ((List.range n).map fun a => f (Equiv.swap i j a)).Perm ((List.range n).map f) := by
  have hmaps : ∀ a, a < n → Equiv.swap i j a < n := fun a ha => by
    rw [Equiv.swap_apply_def]
    split_ifs
    exacts [hj, hi, ha]
  have hindices : ((List.range n).map (Equiv.swap i j)).Perm (List.range n) := by
    refine (List.perm_ext_iff_of_nodup (List.nodup_range.map (Equiv.injective _)) List.nodup_range).mpr fun a => ?_
    simp only [List.mem_map, List.mem_range]
    refine ⟨?_, fun ha => ⟨_, hmaps a ha, Equiv.swap_apply_self i j a⟩⟩
    rintro ⟨b, hb, rfl⟩
    exact hmaps b hb
  simpa [Function.comp_def] using hindices.map f

/-- The coordinates of R74 in order: 0x01..0xFF. -/
def coordinateList : List Byte := (List.range 255).map fun i => BitVec.ofNat 8 (i + 1)

theorem nodup_coordinateList : coordinateList.Nodup := by
  refine List.nodup_range.map_on fun i hi j hj hij => ?_
  rw [List.mem_range] at hi hj
  have := congrArg BitVec.toNat hij
  simp only [BitVec.toNat_ofNat] at this
  omega

theorem ne_zero_of_mem_coordinateList {b : Byte} (h : b ∈ coordinateList) : b ≠ 0#8 := by
  obtain ⟨i, hi, rfl⟩ := List.mem_map.mp h
  rw [List.mem_range] at hi
  bv_omega

/-- R75: the bank a PICK selects holds the coordinates, in some order. -/
theorem pickResult_perm {s : State} {rs1 : Reg} {x : Memory} {rest : List Draw} (hw : s.X.wf = true)
    (h : pickResult s rs1 = .selected x rest) : ((List.range 255).map x.read).Perm coordinateList := by
  obtain ⟨ho, hread⟩ := orderedCoordinates_spec hw
  refine (shuffle_keeps (P := fun y => y.wf = true ∧ ((List.range 255).map y.read).Perm coordinateList) (n := countOf s rs1)
    (Nat.le_of_lt_succ (countOf_lt s rs1)) ?_ s.draws 0 _ ⟨ho, ?_⟩ x rest h).2
  · rintro y i j hi hj ⟨hy, hperm⟩
    obtain ⟨hwf, -⟩ := Memory.swap_spec hy (Nat.lt_succ_of_lt hi) (Nat.lt_succ_of_lt hj)
    refine ⟨hwf, .trans ?_ hperm⟩
    rw [funext (Memory.read_swap hy (Nat.lt_succ_of_lt hi) (Nat.lt_succ_of_lt hj))]
    exact map_range_swap_perm y.read hi hj
  · refine .of_eq (List.map_congr_left fun a ha => ?_)
    rw [hread, if_pos (List.mem_range.mp ha)]

/-- A bank that holds the coordinates in some order has distinct elements. -/
theorem distinct_of_perm {x : Memory} (h : ((List.range 255).map x.read).Perm coordinateList) {k : Nat} (hk : k ≤ 255) :
    Distinct x k := by
  intro i j hij hj heq
  have hinj := List.inj_on_of_nodup_map (h.nodup_iff.mpr nodup_coordinateList)
  exact hij.ne (hinj (List.mem_range.mpr (by omega)) (List.mem_range.mpr (by omega)) heq)

theorem read_ne_zero_of_perm {x : Memory} (h : ((List.range 255).map x.read).Perm coordinateList) {i : Nat} (hi : i < 255) :
    x.read i ≠ 0#8 :=
  ne_zero_of_mem_coordinateList (h.mem_iff.mp (List.mem_map_of_mem (List.mem_range.mpr hi)))

/-! ### The answers used -/

/-- R76: every step from `i` on takes an answer, and answers are used in order. -/
theorem shuffle_uses {n : Nat} :
    ∀ (ds : List Draw) (i : Nat) (x x' : Memory) (rest : List Draw), shuffle n ds i x = .selected x' rest →
      n + rest.length ≤ ds.length + i ∧ rest <:+ ds := by
  intro ds
  induction ds with
  | nil =>
    intro i x x' rest h
    rcases lt_or_ge i n with hi | hi
    · rw [shuffle_unanswered hi] at h; cases h
    · rw [shuffle_end hi] at h; cases h
      exact ⟨by omega, List.suffix_rfl⟩
  | cons d ds ih =>
    intro i x x' rest h
    rcases lt_or_ge i n with hi | hi
    · cases d with
      | fail => rw [shuffle_fail hi] at h; cases h
      | byte r =>
        rw [shuffle_byte hi] at h
        obtain ⟨i', y, hi', h⟩ : ∃ i' y, i' ≤ i + 1 ∧ shuffle n ds i' y = .selected x' rest := by
          split at h
          exacts [⟨_, _, le_rfl, h⟩, ⟨_, _, Nat.le_succ i, h⟩]
        obtain ⟨hlen, hsuffix⟩ := ih _ _ _ _ h
        exact ⟨by rw [List.length_cons]; omega, hsuffix.trans (List.suffix_cons _ ds)⟩
    · rw [shuffle_end hi] at h; cases h
      exact ⟨by omega, List.suffix_rfl⟩

end Sys2Proof.Machine
end

section
/-! SUPPORT. How many of the 256 bytes a draw accepts, and how many give each swap index (R75, R76). -/

namespace Sys2Proof.Machine

theorem drawLimit_add_mod (i : Nat) : drawLimit i + 256 % candidates i = 256 := Nat.sub_add_cancel (Nat.mod_le ..)

theorem candidates_dvd_drawLimit (i : Nat) : candidates i ∣ drawLimit i := Nat.dvd_sub_mod 256

/-- Counting bytes is counting the numbers below 256. -/
theorem length_filter_allBytes (p : Nat → Prop) [DecidablePred p] :
    (allBytes.filter fun r => decide (p r.toNat)).length = Nat.count p 256 := by
  rw [← List.countP_eq_length_filter, allBytes, List.countP_map, Nat.count]
  refine List.countP_congr fun k hk => ?_
  rw [Function.comp_apply, BitVec.toNat_ofNat, Nat.mod_eq_of_lt (List.mem_range.mp hk)]

/-- R76: the rejected bytes. -/
theorem count_rejected (i : Nat) : Nat.count (drawLimit i ≤ ·) 256 = 256 % candidates i := by
  have hbelow : Nat.count (drawLimit i ≤ ·) (drawLimit i) = 0 := Nat.count_iff_forall_not.mpr fun _ => Nat.not_le_of_lt
  have habove : Nat.count (fun k => drawLimit i ≤ drawLimit i + k) (256 % candidates i) = 256 % candidates i :=
    Nat.count_iff_forall.mpr fun k _ => Nat.le_add_right _ k
  conv_lhs => rw [← drawLimit_add_mod i, Nat.count_add, hbelow, habove, Nat.zero_add]

/-- R75: the accepted bytes that give one swap index, since the limit is a multiple of the candidate count. -/
theorem count_accepted_residue {i q : Nat} (hq : q < candidates i) :
    Nat.count (fun k => k < drawLimit i ∧ k % candidates i = q) 256 = drawLimit i / candidates i := by
  have hbelow : Nat.count (fun k => k < drawLimit i ∧ k % candidates i = q) (drawLimit i) = drawLimit i / candidates i := by
    calc Nat.count (fun k => k < drawLimit i ∧ k % candidates i = q) (drawLimit i)
        = Nat.count (· ≡ q [MOD candidates i]) (drawLimit i) := by
          refine List.countP_congr fun k hk => ?_
          simp [List.mem_range.mp hk, Nat.ModEq, Nat.mod_eq_of_lt hq]
      _ = drawLimit i / candidates i := by
          rw [Nat.count_modEq_card _ (Nat.zero_lt_of_lt hq), Nat.mod_eq_zero_of_dvd (candidates_dvd_drawLimit i),
            if_neg (Nat.not_lt_zero _), Nat.add_zero]
  have habove : Nat.count (fun k => drawLimit i + k < drawLimit i ∧ (drawLimit i + k) % candidates i = q)
      (256 % candidates i) = 0 :=
    Nat.count_iff_forall_not.mpr fun k _ h => absurd h.1 (by omega)
  conv_lhs => rw [← drawLimit_add_mod i, Nat.count_add, hbelow, habove, Nat.add_zero]

/-- R76: at most 127 bytes are rejected; from 129 candidates on the quotient is 1. -/
theorem mod_candidates_le {m : Nat} (hm : 0 < m) (hm' : m ≤ 256) : 256 % m ≤ 127 := by
  rcases Nat.lt_or_ge 128 m with h | h
  · rw [Nat.mod_eq_sub_mod hm', Nat.mod_eq_of_lt (by omega)]
    omega
  · have := Nat.mod_lt 256 hm
    omega

end Sys2Proof.Machine
end

section
/-! SUPPORT. PICK by what it writes, for each end of its shuffle (R74, R76, R84). -/

namespace Sys2Proof.Machine

/-- PICK's completion over a new bank X: R83's, with nothing else written. -/
theorem complete_withX_spec (s : State) (x : Memory) (e : Option ErrorKind) :
    ∃ t, (.next (complete { s with X := x } e) : Host.Outcome State Fault Refusal) = .next t ∧ CompletedWith e s t ∧
      SameRegs s t ∧ t.C = s.C ∧ t.Y = s.Y ∧ t.X = x :=
  ⟨_, rfl, complete_completedWith e (StorageOf.withX s x).sameRest, fun _ => rfl, rfl, rfl, rfl⟩

theorem exec_pick_zero {s : State} {rs1 : Reg} (h : readG s rs1 = 0#8) : exec (.pick rs1) s = raise .rangeExceeded s := by
  rw [exec, execPick, if_pos ((countOf_eq_zero_iff s rs1).mpr h)]

theorem exec_pick_selected {s : State} {rs1 : Reg} {x : Memory} {rest : List Draw} (hn : readG s rs1 ≠ 0#8)
    (h : pickResult s rs1 = .selected x rest) : exec (.pick rs1) s = succeed { s with X := x } := by
  rw [exec, execPick, if_neg ((countOf_eq_zero_iff s rs1).not.mpr hn), h]

theorem exec_pick_failed {s : State} {rs1 : Reg} {rest : List Draw} (hn : readG s rs1 ≠ 0#8)
    (h : pickResult s rs1 = .failed rest) :
    exec (.pick rs1) s = raise .randomnessFailure { s with X := clearedCoordinates s.X } := by
  rw [exec, execPick, if_neg ((countOf_eq_zero_iff s rs1).not.mpr hn), h]

theorem exec_pick_waiting {s : State} {rs1 : Reg} (hn : readG s rs1 ≠ 0#8) (h : pickResult s rs1 = .waiting) :
    exec (.pick rs1) s = .next s := by
  rw [exec, execPick, if_neg ((countOf_eq_zero_iff s rs1).not.mpr hn), h]

theorem code_ne_zero (e : ErrorKind) : e.code ≠ 0#8 := by cases e <;> decide

/-- A PICK that ends a running command with ERR = 0x00 has finished its shuffle, and leaves its bank in X. -/
theorem exec_pick_succeeded {s t : State} {rs1 : Reg} (h : exec (.pick rs1) s = .next t) (hs : s.busy = true)
    (ht : t.busy = false) (herr : t.err = 0#8) : ∃ rest, pickResult s rs1 = .selected t.X rest := by
  cases CommandEnd.of_exec h with
  | waits => rw [hs] at ht; cases ht
  | fails => exact absurd herr (code_ne_zero _)
  | clearsCoordinates => exact absurd herr (code_ne_zero .randomnessFailure)
  | selects _ hx => exact ⟨_, hx⟩
  | writes hd => cases hd

end Sys2Proof.Machine
end

section
/-! PROOF. The coordinate selector (spec/42_coordinate_select.md). -/

namespace Sys2Proof.Machine

/-- Settles O15: one end of the shuffle after another. -/
theorem pickShufflesAnswers : Obligations.PickShufflesAnswers := by
  intro rs1 s hwf
  obtain ⟨-, hX, -⟩ := banksWf_iff.mp hwf
  refine ⟨decode_of_fields rfl (Laws.EncodedFields.pick rs1), fun h0 => ?_, fun rest hn hr => ?_, fun x rest hn hr => ?_,
    fun hn hr => ?_⟩
  · rw [exec_pick_zero h0]
    exact raise_spec .rangeExceeded s
  · obtain ⟨-, hcleared⟩ := clearedCoordinates_spec hX
    obtain ⟨t, ht, hdone, hregs, hC, hY, hx⟩ := complete_withX_spec s (clearedCoordinates s.X) (some .randomnessFailure)
    refine ⟨t, (exec_pick_failed hn hr).trans ht, hdone, hregs, fun a => ?_⟩
    exact ⟨by rw [hC], by rw [hY], by rw [hx, hcleared]⟩
  · obtain ⟨-, hkept⟩ := pickResult_selected hX hr
    obtain ⟨t, ht, hdone, hregs, hC, hY, rfl⟩ := complete_withX_spec s x none
    refine ⟨t, (exec_pick_selected hn hr).trans ht, hdone, hregs, fun a => ?_⟩
    exact ⟨by rw [hC], by rw [hY], rfl, hkept a⟩
  · exact exec_pick_waiting hn hr

/-- Settles O16: the shuffle's equations, with its swap read element by element. -/
theorem shuffleFollowsTheRule : Obligations.ShuffleFollowsTheRule := by
  refine ⟨fun s rs1 hX => ⟨_, rfl, orderedCoordinates_spec hX⟩, fun n i x r ds hn hx => ⟨fun hi => shuffle_end hi ds x,
    fun hi => ⟨shuffle_unanswered hi x, shuffle_fail hi ds x⟩, fun hi hr => ?_, fun hi hr => ?_⟩⟩
  · exact (shuffle_byte hi r ds x).trans (if_neg (Nat.not_lt.mpr hr))
  · have hi256 : i < 256 := by omega
    have hj256 : i + r.toNat % candidates i < 256 := Nat.lt_succ_of_lt (swapIndex_lt hn hi r.toNat)
    refine ⟨_, (shuffle_byte hi r ds x).trans (if_pos hr), (Memory.swap_spec hx hi256 hj256).1, fun a => ?_⟩
    rw [Memory.read_swap hx hi256 hj256, Equiv.swap_apply_def, apply_ite x.read, apply_ite x.read, candidates]

/-- Settles O17: every swap permutes the coordinates. -/
theorem pickSelectsAPermutation : Obligations.PickSelectsAPermutation := by
  intro rs1 s t hwf h hs ht herr
  obtain ⟨-, hX, -⟩ := banksWf_iff.mp hwf
  obtain ⟨rest, hr⟩ := exec_pick_succeeded h hs ht herr
  have hperm := pickResult_perm hX hr
  have hn : countOf s rs1 ≤ 255 := Nat.le_of_lt_succ (countOf_lt s rs1)
  exact ⟨hperm, distinct_of_perm hperm hn, fun i hi => read_ne_zero_of_perm hperm (hi.trans_le hn),
    (pickResult_selected hX hr).2 255 le_rfl⟩

/-- Settles O18: the answers used, and the bytes from the limit on. -/
theorem pickDrawCounts : Obligations.PickDrawCounts := by
  refine ⟨fun rs1 s x rest h => shuffle_uses s.draws 0 _ x rest h,
    fun i hi => ⟨?_, mod_candidates_le (by omega) (by omega)⟩, by decide⟩
  exact (length_filter_allBytes (drawLimit i ≤ ·)).trans (count_rejected i)

/-- Settles O19: each residue has `drawLimit i / candidates i` accepted bytes, and the candidate count divides the limit. -/
theorem pickSwapIndexIsUnbiased : Obligations.PickSwapIndexIsUnbiased := by
  intro i q _ hq
  simp only [← Bool.decide_and]
  rw [length_filter_allBytes fun k => k < drawLimit i ∧ k % (255 - i) = q]
  exact (congrArg (· * candidates i) (count_accepted_residue hq)).trans (Nat.div_mul_cancel (candidates_dvd_drawLimit i))

end Sys2Proof.Machine
end

section
/-! SUPPORT. The one word of a command (R50, R57), and what WIPE leaves in a bank and in a register (R78). -/

namespace Sys2Proof.Machine

/-- A decoded word has its command's fields, and fields determine the word: so a command has no word but its own. -/
theorem decode_eq_some_iff_eq_encode {i : Instr} (h : Laws.EncodedFields.Statement i) (w : Word) :
    decode w = some i ↔ w = encode i :=
  ⟨fun hd => wordFields_injective ((fields_of_decode hd).symm.trans h.symm), fun hw => decode_of_fields hw.symm h⟩

theorem read_wipeBank (sel : Bool) (m : Memory) (a : Nat) : (wipeBank sel m).read a = if sel then 0#8 else m.read a := by
  cases sel <;> rfl

theorem getElem_wipeRegs (sel : Bool) (g : Vector Byte 16) (r : Reg) :
    (wipeRegs sel g)[r.val] = if sel then 0#8 else g[r.val] := by
  cases sel with
  | true => exact Vector.getElem_replicate r.isLt
  | false => rfl

end Sys2Proof.Machine
end

section
/-! PROOF. The system commands (spec/43_system.md). -/

namespace Sys2Proof.Machine

/-- Settles O20: NOP is `succeed`, its only word is 0x00000000, and CMD holds that word at reset. -/
theorem nopOnlyCompletes : Obligations.NopOnlyCompletes := by
  have hword := decode_eq_some_iff_eq_encode Laws.EncodedFields.nop
  exact ⟨hword, fun s => succeed_spec (SameRest.refl s), (hword State.reset.cmd).mpr rfl, rfl⟩

/-- Settles O21: WIPE is `succeed` over the wiped banks and registers, each read by its own rule. -/
theorem wipeZeroesTheSelected : Obligations.WipeZeroesTheSelected := by
  intro mask s
  refine ⟨decode_of_fields rfl (Laws.EncodedFields.wipe mask), _, rfl, complete_completedWith none (SameRest.refl s),
    fun a => ?_, fun a => ?_, fun a => ?_, fun r => ?_⟩
  · exact read_wipeBank (maskC mask) s.C a
  · exact read_wipeBank (maskX mask) s.X a
  · exact read_wipeBank (maskY mask) s.Y a
  · exact getElem_wipeRegs (maskG mask) s.G r

end Sys2Proof.Machine
end

section
/-! SUPPORT. The request on the entropy port (R92), the answers that a running PICK holds, and the invariant of the core: what
establishes it for an idle core, and the operations that keep it. -/

namespace Sys2Proof.Machine

/-! ### The request on the entropy port -/

/-- R92: a request is in progress exactly while a running PICK waits for an answer. -/
theorem requestPending_iff {s : State} :
    requestPending s = true ↔ s.busy = true ∧ ∃ i, decode s.cmd = some i ∧ awaitsEntropy i s := by
  cases hb : s.busy with
  | false => simp [requestPending, hb]
  | true =>
    cases hd : decode s.cmd with
    | none => simp [requestPending, hb, hd]
    | some i => cases i <;> simp [requestPending, hb, hd, awaitsEntropy]

/-! ### The answers held -/

/-- A shuffle that was given no answer leaves none over. -/
theorem leftover_shuffle_nil (n i : Nat) (x : Memory) : (shuffle n [] i x).leftover = [] := by
  rw [shuffle]
  split <;> rfl

/-- With no answer held, all that are held are consumed, whatever command runs: the state right after acceptance. -/
theorem drawsConsumed_of_draws_nil {s : State} (h : s.draws = []) : drawsConsumed s = true := by
  simp only [drawsConsumed, pickResult, h, leftover_shuffle_nil]
  repeat' split
  all_goals rfl

theorem drawsConsumed_idle {s : State} (hb : s.busy = false) : drawsConsumed s = true ↔ s.draws = [] := by
  simp [drawsConsumed, hb]

theorem drawsConsumed_pick {s : State} {rs1 : Reg} (hb : s.busy = true) (hd : decode s.cmd = some (.pick rs1))
    (hn : countOf s rs1 ≠ 0) : drawsConsumed s = true ↔ (pickResult s rs1).leftover = [] := by
  simp [drawsConsumed, hb, hd, hn]

/-- R76, R92: the answer to the request in progress is one the shuffle consumes. -/
theorem drawsConsumed_append {s : State} (hreq : requestPending s = true) (d : Draw) :
    drawsConsumed { s with draws := s.draws ++ [d] } = true := by
  obtain ⟨hb, _, hd, rs1, rfl, hn, hwait⟩ := requestPending_iff.mp hreq
  exact (drawsConsumed_pick (s := { s with draws := s.draws ++ [d] }) hb hd hn).mpr (shuffle_append d s.draws 0 _ hwait)

/-! ### The invariant -/

/-- An idle core has canonical banks, a code the core writes in ERR, and no answer held. -/
theorem coreInv_of_idle {t : State} (hidle : t.busy = false) (hbanks : banksWf t = true) (herr : t.err.toNat ≤ 6)
    (hdraws : t.draws = []) : CoreInv t :=
  ⟨hbanks, by simp [runningStatusClear, hidle], decide_eq_true herr, (drawsConsumed_idle hidle).mpr hdraws⟩

theorem banksWf_sequencerTurn {s t : State} (hb : s.busy = true) (hwf : banksWf s = true)
    (h : sequencerTurn s = .next t) : banksWf t = true := by
  cases hd : decode s.cmd with
  | none => rw [sequencerTurn_of_illegal hb hd] at h; cases h; exact hwf
  | some i => rw [sequencerTurn_of_decode hb hd] at h; exact banksWf_exec hwf h

/-- A turn of the sequencer waits, changing nothing, or leaves an idle core. -/
theorem coreInv_sequencerTurn {s t : State} (hb : s.busy = true) (hinv : CoreInv s) (h : sequencerTurn s = .next t) :
    CoreInv t := by
  rcases completed_of_sequencerTurn hb h with rfl | ⟨hidle, -, herr, hdraws, -⟩
  · exact hinv
  · exact coreInv_of_idle hidle (banksWf_sequencerTurn hb hinv.1 h) (herr ▸ outcomeCode_le _) hdraws

/-- Clearing DONE, OVR and HAZ keeps the invariant. -/
theorem coreInv_statusWrite {s : State} (hinv : CoreInv s) (v : Word) : CoreInv (statusWrite v s) := by
  obtain ⟨hbanks, hstatus, herr, hdraws⟩ := hinv
  refine ⟨hbanks, ?_, herr, hdraws⟩
  simp only [runningStatusClear, statusWrite_busy, statusWrite_done, statusWrite_err, Bool.or_eq_true, Bool.and_eq_true,
    Bool.not_eq_true', Bool.and_eq_false_iff] at hstatus ⊢
  exact hstatus.imp_right fun ⟨hdone, herr0⟩ => ⟨.inl hdone, herr0⟩

end Sys2Proof.Machine
end

section
/-! SUPPORT. What a command that raises an error has written (R84). -/

namespace Sys2Proof.Machine

/-- R85: only a PICK whose shuffle met a FAIL raises RandomnessFailure. -/
theorem pick_of_randomnessFailure {i : Instr} {s : State} (h : firstError i s = some .randomnessFailure) :
    ∃ rs1 rest, i = .pick rs1 ∧ readG s rs1 ≠ 0#8 ∧ pickResult s rs1 = .failed rest := by
  cases i with
  | pick rs1 =>
    simp only [firstError] at h
    split at h
    · cases h
    · rename_i hn
      split at h
      · rename_i rest hr
        exact ⟨rs1, rest, rfl, hn, hr⟩
      · cases h
      · cases h
  | nop | add | mul | wipe => cases h
  | inv | div | eval =>
    simp only [firstError] at h
    split at h <;> cases h
  | interp =>
    simp only [firstError] at h
    repeat' split at h
    all_goals cases h

/-- R84: a command that ends with an error has written nothing, but for a PICK that raises RandomnessFailure, which has
cleared its coordinates. -/
theorem exec_failed {i : Instr} {s t : State} (h : exec i s = .next t) (hs : s.busy = true) (ht : t.busy = false)
    (herr : t.err ≠ 0#8) :
    (∃ e, e ≠ .randomnessFailure ∧ t = complete s (some e)) ∨
      ∃ rs1, i = .pick rs1 ∧ t = complete { s with X := clearedCoordinates s.X } (some .randomnessFailure) := by
  cases CommandEnd.of_exec h with
  | waits => rw [hs] at ht; cases ht
  | @fails _ e he =>
    by_cases hrf : e = .randomnessFailure
    · subst hrf
      obtain ⟨rs1, rest, rfl, hn, hr⟩ := pick_of_randomnessFailure he
      rw [exec_pick_failed hn hr] at h
      exact .inr ⟨rs1, rfl, (Host.Outcome.next.inj h).symm⟩
    · exact .inl ⟨e, hrf, rfl⟩
  | @clearsCoordinates rs1 => exact .inr ⟨rs1, rfl, rfl⟩
  | selects | writes | nop | wipes => exact absurd rfl herr

/-- R84: the same for a turn of the sequencer, where an illegal word has raised IllegalCommand. -/
theorem sequencerTurn_failed {s t : State} (h : sequencerTurn s = .next t) (hs : s.busy = true) (ht : t.busy = false)
    (herr : t.err ≠ 0#8) :
    (∃ e, e ≠ .randomnessFailure ∧ t = complete s (some e)) ∨
      (∃ rs1, decode s.cmd = some (.pick rs1)) ∧
        t = complete { s with X := clearedCoordinates s.X } (some .randomnessFailure) := by
  cases hd : decode s.cmd with
  | none =>
    rw [sequencerTurn_of_illegal hs hd] at h
    cases h
    exact .inl ⟨.illegalCommand, by decide, rfl⟩
  | some i =>
    rw [sequencerTurn_of_decode hs hd] at h
    refine (exec_failed h hs ht herr).imp_right ?_
    rintro ⟨rs1, rfl, hcleared⟩
    exact ⟨⟨rs1, rfl⟩, hcleared⟩

theorem code_eq_randomnessFailure_iff (e : ErrorKind) :
    e.code = ErrorKind.randomnessFailure.code ↔ e = .randomnessFailure := by
  cases e <;> decide

end Sys2Proof.Machine
end

section
/-! SUPPORT. When the interrupt line rises and what deasserts it (R89). -/

namespace Sys2Proof.Machine

theorem irq_eq_true_iff (s : State) : irq s = true ↔ s.done = true ∧ s.ie = true := by simp [irq]

theorem irq_of_done_eq_false {s : State} (h : s.done = false) : irq s = false := by simp [irq, h]

theorem irq_of_ie_eq_false {s : State} (h : s.ie = false) : irq s = false := by simp [irq, h]

@[simp] theorem storeAt_ie (p : Place) (v : Word) (s : State) : (storeAt p v s).ie = s.ie := by cases p <;> rfl

/-- R89: the line rises by a completion, or by enabling it while DONE = 1. -/
theorem irq_rises {s t : State} (h : step s = .next t) (hs : irq s = false) (ht : irq t = true) :
    (SequencerRuns s ∧ t.busy = false) ∨ (s.done = true ∧ ∃ v, HostWrites s .ctrl v ∧ v.getLsbD 0 = true) := by
  have hsame : irq t ≠ irq s := by simp [hs, ht]
  obtain ⟨hdone, hie⟩ := (irq_eq_true_iff t).mp ht
  cases StepEffect.of_step h with
  | turn hrun hturn =>
    rcases turn_waits_or_completes hrun hturn with rfl | ⟨hbusy, -⟩
    · exact absurd rfl hsame
    · exact .inl ⟨hrun, hbusy⟩
  | @setsIe v hw => exact .inr ⟨hdone, v, hw, hie⟩
  | clears =>
    obtain ⟨hdone', -⟩ := Bool.and_eq_true_iff.mp hdone
    exact absurd ((irq_eq_true_iff s).mpr ⟨hdone', hie⟩) (Bool.eq_false_iff.mp hs)
  | stores => exact absurd (by simp [irq]) hsame
  | accepts | resets => cases hdone
  | _ => exact absurd rfl hsame

/-- R89: a STATUS write with bit 1 = 1 deasserts the line. -/
theorem irq_of_status_write {s t : State} {v : Word} (h : step s = .next t) (hw : HostWrites s .status v)
    (hv : v.getLsbD 1 = true) : irq t = false := by
  rw [step_of_hostWrites hw] at h
  cases h
  exact irq_of_done_eq_false (by simp [placeWrite, hv])

/-- R89: a CTRL write with bit 0 = 0 deasserts the line, whether or not it is a reset. -/
theorem irq_of_ctrl_write {s t : State} {v : Word} (h : step s = .next t) (hw : HostWrites s .ctrl v)
    (hv : v.getLsbD 0 = false) : irq t = false := by
  rw [step_of_hostWrites hw, placeWrite, ctrlWrite] at h
  cases h
  refine irq_of_ie_eq_false ?_
  rw [respond_ie]
  split
  · rfl
  · exact hv

theorem irq_of_reset {s t : State} (h : step s = .next t) (hr : ResetNext s) : irq t = false := by
  obtain ⟨a, ha⟩ := step_of_resetNext hr
  rw [ha] at h
  cases h
  rfl

end Sys2Proof.Machine
end

section
/-! PROOF. Completion, errors, the interrupt line, entropy answers and the core's invariant (spec/60_exceptions.md). -/

namespace Sys2Proof.Machine

/-- Settles O49: the invariant in each effect of a step. Most effects leave every field it speaks of. -/
theorem stepKeepsCoreInv : Obligations.StepKeepsCoreInv := by
  intro s t hinv h
  have ⟨hbanks, hstatus, herr, hdraws⟩ := hinv
  cases StepEffect.of_step h with
  | turn hrun hturn => exact coreInv_sequencerTurn (s := s.pop) hrun.1 hinv hturn
  | takesDraw d hreq => exact ⟨hbanks, hstatus, herr, drawsConsumed_append hreq d⟩
  | accepts hidle hw => exact ⟨hbanks, rfl, rfl, drawsConsumed_of_draws_nil ((drawsConsumed_idle hidle).mp hdraws)⟩
  | @clears v hw => exact coreInv_statusWrite hinv v
  | resets hr => exact coreInv_of_idle rfl rfl (Nat.zero_le 6) rfl
  | @stores p v hp hidle hw =>
    exact coreInv_of_idle ((storeAt_busy p v s.pop).trans hidle) (banksWf_storeAt (s := s.pop) hbanks p v)
      (by simpa [errCodeLegal] using herr) ((storeAt_draws p v s.pop).trans ((drawsConsumed_idle hidle).mp hdraws))
  | nothing | answers | overruns | setsIe | refuses => exact hinv

/-- Settles O28: the two ends of a turn. -/
theorem sequencerTurnCompletes : Obligations.SequencerTurnCompletes := by
  intro s hb
  rcases sequencerTurn_cases s hb with ⟨h, hwait⟩ | ⟨w, e, h, hstorage⟩
  · exact ⟨s, h, .inl ⟨rfl, hwait⟩⟩
  · exact ⟨_, h, .inr ⟨e, complete_completedWith e hstorage.sameRest⟩⟩

/-- Settles O29: the two ends of a failed command: nothing written, or PICK's cleared coordinates. -/
theorem failedCommandsWriteNothing : Obligations.FailedCommandsWriteNothing := by
  intro s t hwf hb h ht herr
  obtain ⟨-, hX, -⟩ := banksWf_iff.mp hwf
  rcases sequencerTurn_failed h hb ht herr with ⟨e, he, rfl⟩ | ⟨hpick, rfl⟩
  · have hcode : (complete s (some e)).err ≠ ErrorKind.randomnessFailure.code :=
      (code_eq_randomnessFailure_iff e).not.mpr he
    refine ⟨fun _ => rfl, fun a => ⟨rfl, rfl, ?_⟩, fun h5 => absurd h5 hcode⟩
    rw [if_neg fun ⟨h5, _⟩ => hcode h5, complete_X]
  · obtain ⟨-, hcleared⟩ := clearedCoordinates_spec hX
    refine ⟨fun _ => by simp [readG], fun a => ?_, fun _ => hpick⟩
    simp [hcleared, outcomeCode]

/-- Settles O30: an illegal word, and the outcome of a command that does not wait. -/
theorem firstFailingCheckIsReported : Obligations.FirstFailingCheckIsReported := by
  intro s hb
  refine ⟨fun hill => ?_, fun i hd hwait => ?_⟩
  · exact ⟨_, sequencerTurn_of_illegal hb hill, complete_completedWith _ (SameRest.refl s)⟩
  · rw [sequencerTurn_of_decode hb hd]
    rcases exec_cases i s with ⟨-, ha⟩ | ⟨w, e, h, -⟩
    · exact absurd ha hwait
    · exact ⟨_, h, (CommandEnd.of_exec h).completed.resolve_left fun ⟨_, ha⟩ => hwait ha⟩

/-- Settles O45: the line's definition, its rise, and each event that deasserts it. -/
theorem interruptLineFollowsDoneAndIe : Obligations.InterruptLineFollowsDoneAndIe := by
  refine ⟨irq_eq_true_iff, fun s t => irq_rises, fun s t h => ?_, fun p line s => by simp [platformIrq]⟩
  rintro (⟨v, hw, hv⟩ | ⟨v, hw, hv⟩ | ⟨hidle, hw⟩ | hr)
  · exact irq_of_status_write h hw hv
  · exact irq_of_ctrl_write h hw hv
  · obtain ⟨-, hdone, -⟩ := accepted_of_idle h hidle hw
    exact irq_of_done_eq_false hdone
  · exact irq_of_reset h hr

theorem exists_sequencerTurn (s : State) : ∃ t, sequencerTurn s = .next t := by
  cases hb : s.busy with
  | false => exact ⟨s, sequencerTurn_idle s hb⟩
  | true =>
    obtain ⟨t, ht, -⟩ := sequencerTurnCompletes s hb
    exact ⟨t, ht⟩

/-- Settles O50, event by event. -/
theorem everyStepGoesOn : Obligations.EveryStepGoesOn := by
  intro s
  rw [GoesOn, step_eq]
  cases nextInput s with
  | sequencer => exact exists_sequencerTurn s.pop
  | read | write | entropy | reset => exact ⟨_, rfl⟩

/-- Settles O55: the entropy event with and without a request in progress. -/
theorem entropyAnswersOnlyToARequest : Obligations.EntropyAnswersOnlyToARequest := by
  intro s d rest hin
  have hreq : requestPending { s with inputs := rest } = requestPending s := rfl
  rw [step_cons hin, event, entropyAnswer, hreq]
  exact ⟨fun h => by rw [if_pos h], fun h => by rw [if_neg (Bool.eq_false_iff.mp h)], requestPending_iff⟩

end Sys2Proof.Machine
end

section
/-! PROOF. The reset rules (spec/70_reset_and_hazards.md). -/

namespace Sys2Proof.Machine

/-- Settles O47: `step_of_resetNext` gives the one next state of both kinds of reset, and `irq_of_reset` its interrupt line. -/
theorem bothResetsGiveTheResetState : Obligations.BothResetsGiveTheResetState := by
  intro s hr
  obtain ⟨a, hstep⟩ := step_of_resetNext hr
  exact ⟨_, hstep, rfl, rfl, irq_of_reset hstep hr⟩

end Sys2Proof.Machine
end

section
/-! SUPPORT. The round trip of encoding and decoding over all commands, from the fields of each command's word (R50 to R57). -/

namespace Sys2Proof.Machine

/-- R57: the word of any command has the fields of the command's row, by the law of its constructor. -/
theorem wordFields_encode (i : Instr) : wordFields (encode i) = i.fields := by
  cases i with
  | nop => exact Laws.EncodedFields.nop
  | add rd rs1 rs2 => exact Laws.EncodedFields.add rd rs1 rs2
  | mul rd rs1 rs2 => exact Laws.EncodedFields.mul rd rs1 rs2
  | inv rd rs1 => exact Laws.EncodedFields.inv rd rs1
  | div rd rs1 rs2 => exact Laws.EncodedFields.div rd rs1 rs2
  | eval rd rs1 rs2 => exact Laws.EncodedFields.eval rd rs1 rs2
  | interp rd rs1 rs2 rs3 => exact Laws.EncodedFields.interp rd rs1 rs2 rs3
  | pick rs1 => exact Laws.EncodedFields.pick rs1
  | wipe mask => exact Laws.EncodedFields.wipe mask

theorem decode_encode (i : Instr) : decode (encode i) = some i := decode_of_fields rfl (wordFields_encode i)

/-- R54: no command is ill-formed, since its fields decode and only well-formed fields do. -/
theorem instr_wellFormed (i : Instr) : i.wellFormed = true := by
  rw [Instr.wellFormed, ← isSome_decodeFields, decodeFields_fields, Option.isSome_some]

end Sys2Proof.Machine
end

section
/-! PROOF. Encoding and decoding undo each other (spec/30_encoding.md), and the invariant of the core at reset
(spec/10_state.md). -/

namespace Sys2Proof.Machine

/-- Settles O23: the word has the command's fields, which are well-formed and decode to the command. -/
theorem decodeOfEncodeIsTheCommand : Obligations.DecodeOfEncodeIsTheCommand :=
  fun i => ⟨instr_wellFormed i, decode_encode i⟩

/-- Settles O24: the word and the command's own word have the same fields, and fields determine the word. -/
theorem encodeOfDecodeIsTheWord : Obligations.EncodeOfDecodeIsTheWord :=
  fun w i h => ((decode_eq_some_iff_eq_encode (wordFields_encode i) w).mp h).symm

/-- Settles O26: each legal word is the word of its command, and the fields of each illegal word are ill-formed. -/
theorem sampleWordsDecode : Obligations.SampleWordsDecode :=
  ⟨decode_encode .nop, decode_encode (.add 3 1 2), decode_encode (.mul 9 8 1), decode_encode (.inv 2 1),
    decode_encode (.div 7 5 2), decode_encode (.eval 4 1 15), decode_encode (.interp 0 1 2 3), decode_encode (.pick 1),
    decode_encode (.wipe 0b1001#4), (decode_eq_none_iff _).mpr rfl, (decode_eq_none_iff _).mpr rfl,
    (decode_eq_none_iff _).mpr rfl⟩

/-- Settles O48: the reset state is idle, with zero banks, no error and no answer held. -/
theorem coreInvAtReset : Obligations.CoreInvAtReset := coreInv_of_idle rfl rfl (Nat.zero_le 6) rfl

end Sys2Proof.Machine
end
